-- ==== Sys2Proof/Word.lean ====
section
/-! DEFINITION. The word types of the machine (spec 00_scope.md R6, R8): 64-bit registers and
addresses, 32-bit instruction words and Condition Register, 4-bit field quantities, and the
register, field and bit numbers that operands name. -/

namespace Sys2Proof

/-- One byte of storage (R40). -/
abbrev Byte := BitVec 8

/-- A 4-bit quantity: a CR field, `fmsk`, `fmap`, a match word (R8). Its most significant bit is the
source's MSB0 bit 0. -/
abbrev Nibble := BitVec 4

/-- A 32-bit instruction word, MSB0 bit 0 the most significant (R7, R60). -/
abbrev InsnWord := BitVec 32

/-- A 64-bit register or storage address (R6 `XLEN` = 64, R23). -/
abbrev Dword := BitVec 64

/-- A GPR number, 0 to 31 (R20, R70). -/
abbrev GprNum := Fin 32

/-- A CR field number, 0 to 7 (R25, R70). -/
abbrev CrFieldNum := Fin 8

/-- A CR bit number `j`, 0 to 31, naming CR bit `32 + j` (R17, R70). -/
abbrev CrBitNum := Fin 32

end Sys2Proof
end

