-- ==== Sys2Proof/Config.lean ====
section
/-! DEFINITION. The parameters the spec leaves open (00_scope.md R6, 92_eei_decisions.md): the opcode
numbers, the byte order of instruction fetch, the version of the base ISA, and the one switch of
93_implementation_defined.md U5. They are plain data, fixed for a run; `State` holds them (log entry 1), so
that a claim about every state is a claim about every value of every parameter. -/

namespace Sys2Proof

/-- The opcode numbers of one CW2-Form instruction (R62, R68, R72): PO, the first XO cell and the
5-bit second XO cell. -/
structure Cw2Opcode where
  po  : BitVec 6
  xoa : BitVec 3
  xob : BitVec 5
  deriving DecidableEq, Repr

/-- The opcode numbers of one CW-Form instruction (R63 to R65, R68, R72): the second XO cell is 6 bits
and there is no Rc. -/
structure CwOpcode where
  po  : BitVec 6
  xoa : BitVec 3
  xob : BitVec 6
  deriving DecidableEq, Repr

/-- `OpAssign`: the open parameter of R72, one triple for each of the six instructions. -/
structure OpAssign where
  crrweird   : Cw2Opcode
  mfcrrweird : Cw2Opcode
  mtcrrweird : CwOpcode
  mtcrweird  : CwOpcode
  mcrfm      : CwOpcode
  crweirder  : CwOpcode
  deriving DecidableEq, Repr

/-- `InsnByteOrder`: the open parameter of R43. -/
inductive ByteOrder where
  | be
  | le
  deriving DecidableEq, Repr

/-- The parameters of a run. -/
structure Config where
  /-- R72: the opcode numbers. -/
  opAssign : OpAssign
  /-- R43: the byte order of instruction fetch. -/
  insnByteOrder : ByteOrder
  /-- R6: `BaseIsaVersion`, the name of the version of the base ISA. No rule reads it, and no definition of
  the model does (log entry 13). -/
  baseIsaVersion : String
  /-- The named switch `MfcrrweirdIgnoresM` of R77 and U5. Off is the spec's rule; on is an assumption
  of whoever turns it on (log entry 9). -/
  mfcrrweirdIgnoresM : Bool
  deriving DecidableEq, Repr

end Sys2Proof
end

