-- ==== Sys2Proof/Syntax.lean ====
section
/-! DEFINITION. The instructions: one constructor for each of the eight mnemonics (R1, R73). Operands
stand in the order of the assembler line (R79 to R82); a field of the word that no operand names
stands last, because the word has it (R76, R77). -/

namespace Sys2Proof

/-- The eight rows of the opcode map (R73). -/
inductive Instr where
  /-- `crrweird RT,BFA,M,fmsk,fmap`, Rc = 0 (R100). -/
  | crrweird (rt : GprNum) (bfa : CrFieldNum) (m : Bool) (fmsk fmap : Nibble)
  /-- `crrweird. RT,BFA,M,fmsk,fmap`, Rc = 1 (R101). -/
  | crrweirdRc (rt : GprNum) (bfa : CrFieldNum) (m : Bool) (fmsk fmap : Nibble)
  /-- `mfcrrweird RT,BFA,fmsk,fmap`, Rc = 0 (R102). `rsvM` is instruction bit 11, which the format has
  and the instruction does not use (R77). -/
  | mfcrrweird (rt : GprNum) (bfa : CrFieldNum) (fmsk fmap : Nibble) (rsvM : Bool)
  /-- `mfcrrweird. RT,BFA,fmsk,fmap`, Rc = 1 (R103); `rsvM` as above. -/
  | mfcrrweirdRc (rt : GprNum) (bfa : CrFieldNum) (fmsk fmap : Nibble) (rsvM : Bool)
  /-- `mtcrrweird BF,RA,M,fmsk,fmap` (R110). -/
  | mtcrrweird (bf : CrFieldNum) (ra : GprNum) (m : Bool) (fmsk fmap : Nibble)
  /-- `mtcrweird BF,RA,M,fmsk,fmap` (R111). -/
  | mtcrweird (bf : CrFieldNum) (ra : GprNum) (m : Bool) (fmsk fmap : Nibble)
  /-- `mcrfm BF,BFA,M,fmsk,fmap` (R120). `rsv` is instruction bits 9:10, the blank cell (R76). -/
  | mcrfm (bf bfa : CrFieldNum) (m : Bool) (fmsk fmap : Nibble) (rsv : BitVec 2)
  /-- `crweirder BT,BFA,M,fmsk,fmap` (R121, operand list by R82). -/
  | crweirder (bt : CrBitNum) (bfa : CrFieldNum) (m : Bool) (fmsk fmap : Nibble)
  deriving DecidableEq, Repr

end Sys2Proof
end

