-- ==== Sys2Proof/WellFormed.lean ====
section
/-! DEFINITION. When an instruction is well formed: the bits R73 lists under "must be zero" are zero.
Every value of every named operand is legal (R70), so nothing else is checked. -/

namespace Sys2Proof

/-- The "must be zero" column of R73: bit 11 of the two `mfcrrweird` rows (R77) and bits 9:10 of
`mcrfm` (R76). -/
def Instr.wellFormed : Instr → Bool
  | .crrweird _ _ _ _ _        => true
  | .crrweirdRc _ _ _ _ _      => true
  | .mfcrrweird _ _ _ _ rsvM   => !rsvM
  | .mfcrrweirdRc _ _ _ _ rsvM => !rsvM
  | .mtcrrweird _ _ _ _ _      => true
  | .mtcrweird _ _ _ _ _       => true
  | .mcrfm _ _ _ _ _ rsv       => rsv == 0
  | .crweirder _ _ _ _ _       => true

end Sys2Proof
end

