-- ==== Sys2Proof/Decode.lean ====
section
/-! DEFINITION. Recognising an instruction word (30_encoding.md R62 to R75), the encoder (R71), the
bytes of a word in either order (R43), the test-only opcode numbers (R74), and the three pseudo-ops
(R84). The decoder takes the opcode numbers as an argument, since the spec gives none (R72). -/

namespace Sys2Proof

/-! ## The opcode map -/

/-- The eight mnemonics, one a row of R73. -/
inductive Mnemonic where
  | crrweird
  | crrweirdRc
  | mfcrrweird
  | mfcrrweirdRc
  | mtcrrweird
  | mtcrweird
  | mcrfm
  | crweirder
  deriving DecidableEq, Repr

/-- The rows of R73 in the table's order. -/
def Mnemonic.all : List Mnemonic :=
  [.crrweird, .crrweirdRc, .mfcrrweird, .mfcrrweirdRc, .mtcrrweird, .mtcrweird, .mcrfm, .crweirder]

/-- The row an instruction belongs to. -/
def Instr.mnemonic : Instr → Mnemonic
  | .crrweird _ _ _ _ _     => .crrweird
  | .crrweirdRc _ _ _ _ _   => .crrweirdRc
  | .mfcrrweird _ _ _ _ _   => .mfcrrweird
  | .mfcrrweirdRc _ _ _ _ _ => .mfcrrweirdRc
  | .mtcrrweird _ _ _ _ _   => .mtcrrweird
  | .mtcrweird _ _ _ _ _    => .mtcrweird
  | .mcrfm _ _ _ _ _ _      => .mcrfm
  | .crweirder _ _ _ _ _    => .crweirder

/-- The common mask of R73: PO, XOa, and bits 26 to 31. -/
def opcodeMask : InsnWord := 0xFC001C3F

/-- The `match` column of R73 for a CW2-Form row, with its Rc bit. -/
def cw2Match (o : Cw2Opcode) (rc : Bool) : InsnWord :=
  o.po.setWidth 32 <<< 26 ||| o.xoa.setWidth 32 <<< 10 ||| o.xob.setWidth 32 <<< 1 |||
    (BitVec.ofBool rc).setWidth 32

/-- The `match` column of R73 for a CW-Form row. -/
def cwMatch (o : CwOpcode) : InsnWord :=
  o.po.setWidth 32 <<< 26 ||| o.xoa.setWidth 32 <<< 10 ||| o.xob.setWidth 32

/-- The `match` column of R73. -/
def OpAssign.matchOf (A : OpAssign) : Mnemonic → InsnWord
  | .crrweird     => cw2Match A.crrweird false
  | .crrweirdRc   => cw2Match A.crrweird true
  | .mfcrrweird   => cw2Match A.mfcrrweird false
  | .mfcrrweirdRc => cw2Match A.mfcrrweird true
  | .mtcrrweird   => cwMatch A.mtcrrweird
  | .mtcrweird    => cwMatch A.mtcrweird
  | .mcrfm        => cwMatch A.mcrfm
  | .crweirder    => cwMatch A.crweirder

/-- Constraint (a) of R72, the premise `OpAssignDisjoint` of R171: no word matches two rows. All rows
have one mask, so that is that no two `match` values are equal. -/
abbrev OpAssign.Disjoint (A : OpAssign) : Prop := (Mnemonic.all.map A.matchOf).Nodup

/-! ## Operand fields (R69, R70), in the LSB0 slices of R62 to R65 -/

/-- `insn[25:21]`: RT, RA or BT. -/
def field5 (w : InsnWord) : Fin 32 := (w.extractLsb' 21 5).toFin

/-- `insn[15:13]`: BFA, or BF of the first CW-Form row. -/
def field3 (w : InsnWord) : CrFieldNum := (w.extractLsb' 13 3).toFin

/-- `insn[25:23]`: BF of `mcrfm`. -/
def fieldBF (w : InsnWord) : CrFieldNum := (w.extractLsb' 23 3).toFin

/-- `insn[22:21]`: the blank cell of `mcrfm` (R76). -/
def fieldRsv (w : InsnWord) : BitVec 2 := w.extractLsb' 21 2

/-- `insn[20]`: M. -/
def fieldM (w : InsnWord) : Bool := w.getLsbD 20

/-- `insn[19:16]`: fmsk. -/
def fieldFmsk (w : InsnWord) : Nibble := w.extractLsb' 16 4

/-- `insn[9:6]`: fmap. -/
def fieldFmap (w : InsnWord) : Nibble := w.extractLsb' 6 4

/-- The instruction a word of the given row stands for. -/
def instrOfRow : Mnemonic → InsnWord → Instr
  | .crrweird, w     => .crrweird (field5 w) (field3 w) (fieldM w) (fieldFmsk w) (fieldFmap w)
  | .crrweirdRc, w   => .crrweirdRc (field5 w) (field3 w) (fieldM w) (fieldFmsk w) (fieldFmap w)
  | .mfcrrweird, w   => .mfcrrweird (field5 w) (field3 w) (fieldFmsk w) (fieldFmap w) (fieldM w)
  | .mfcrrweirdRc, w => .mfcrrweirdRc (field5 w) (field3 w) (fieldFmsk w) (fieldFmap w) (fieldM w)
  | .mtcrrweird, w   => .mtcrrweird (field3 w) (field5 w) (fieldM w) (fieldFmsk w) (fieldFmap w)
  | .mtcrweird, w    => .mtcrweird (field3 w) (field5 w) (fieldM w) (fieldFmsk w) (fieldFmap w)
  | .mcrfm, w        =>
    .mcrfm (fieldBF w) (field3 w) (fieldM w) (fieldFmsk w) (fieldFmap w) (fieldRsv w)
  | .crweirder, w    => .crweirder (field5 w) (field3 w) (fieldM w) (fieldFmsk w) (fieldFmap w)

/-- The row that recognises a word (R73): the one with `w & mask = match`. -/
def rowOf (A : OpAssign) (w : InsnWord) : Option Mnemonic :=
  Mnemonic.all.find? fun mn => w &&& opcodeMask == A.matchOf mn

/-- Decoding a word; `none` where no row recognises it (R75). The reserved bits are kept in the
instruction and are checked after recognition (R73). -/
def decodeWord (A : OpAssign) (w : InsnWord) : Option Instr :=
  (rowOf A w).map fun mn => instrOfRow mn w

/-! ## Bytes of a word (R43) -/

/-- `v << lo` in a 32-bit word: a cell whose least significant bit stands at `insn[lo]`. -/
def cell {n : Nat} (v : BitVec n) (lo : Nat) : InsnWord := v.setWidth 32 <<< lo

/-- The word that four bytes in storage make, `b0` at the lowest address (R43). -/
def wordOfBytes : ByteOrder → Byte → Byte → Byte → Byte → InsnWord
  | .be, b0, b1, b2, b3 => cell b0 24 ||| cell b1 16 ||| cell b2 8 ||| cell b3 0
  | .le, b0, b1, b2, b3 => cell b3 24 ||| cell b2 16 ||| cell b1 8 ||| cell b0 0

/-- The byte of a word that stands at offset `k` (0 to 3) from its address (R43). -/
def byteOfWord : ByteOrder → InsnWord → Nat → Byte
  | .be, w, k => w.extractLsb' (24 - 8 * k) 8
  | .le, w, k => w.extractLsb' (8 * k) 8

/-- The four bytes of a word, lowest address first. -/
def bytesOfWord (ord : ByteOrder) (w : InsnWord) : List Byte :=
  [byteOfWord ord w 0, byteOfWord ord w 1, byteOfWord ord w 2, byteOfWord ord w 3]

/-- Why bytes decode to no instruction. -/
inductive DecodeReject where
  /-- Fewer than the four bytes of an instruction (R60). -/
  | truncated
  /-- The word matches no row of R73 (R75). -/
  | illegalWord (w : InsnWord)
  deriving DecidableEq, Repr

/-- Decoding a stream of bytes: the first four make the instruction (R60, R86), and the rest is
returned. -/
def decodeBytes (cfg : Config) : List Byte → Except DecodeReject (Instr × List Byte)
  | b0 :: b1 :: b2 :: b3 :: rest =>
    let w := wordOfBytes cfg.insnByteOrder b0 b1 b2 b3
    match decodeWord cfg.opAssign w with
    | some i => .ok (i, rest)
    | none   => .error (.illegalWord w)
  | _ => .error .truncated

/-! ## The encoder (R71) -/

/-- A CW2-Form word (R71, R62): `po<<26 | RT<<21 | M<<20 | fmsk<<16 | BFA<<13 | xoa<<10 | fmap<<6 |
xob<<1 | Rc`. -/
def cw2Word (o : Cw2Opcode) (rt : GprNum) (m : Bool) (fmsk : Nibble) (bfa : CrFieldNum)
    (fmap : Nibble) (rc : Bool) : InsnWord :=
  cell o.po 26 ||| cell (BitVec.ofFin (w := 5) rt) 21 ||| cell (BitVec.ofBool m) 20 ||| cell fmsk 16 |||
    cell (BitVec.ofFin (w := 3) bfa) 13 ||| cell o.xoa 10 ||| cell fmap 6 ||| cell o.xob 1 |||
    cell (BitVec.ofBool rc) 0

/-- A CW-Form word of the first or second row (R71, R63, R64): `po<<26 | RA<<21 | M<<20 | fmsk<<16 |
BF<<13 | xoa<<10 | fmap<<6 | xob`, with BT for RA and BFA for BF in the second. -/
def cwWord (o : CwOpcode) (a : Fin 32) (m : Bool) (fmsk : Nibble) (b : CrFieldNum)
    (fmap : Nibble) : InsnWord :=
  cell o.po 26 ||| cell (BitVec.ofFin (w := 5) a) 21 ||| cell (BitVec.ofBool m) 20 ||| cell fmsk 16 |||
    cell (BitVec.ofFin (w := 3) b) 13 ||| cell o.xoa 10 ||| cell fmap 6 ||| cell o.xob 0

/-- A CW-Form word of the third row (R71, R65): `po<<26 | BF<<23 | rsv<<21 | M<<20 | fmsk<<16 | BFA<<13 |
xoa<<10 | fmap<<6 | xob`, `rsv` the blank cell, which R71 writes as 0. -/
def cwFieldWord (o : CwOpcode) (bf : CrFieldNum) (rsv : BitVec 2) (m : Bool) (fmsk : Nibble)
    (bfa : CrFieldNum) (fmap : Nibble) : InsnWord :=
  cell o.po 26 ||| cell (BitVec.ofFin (w := 3) bf) 23 ||| cell rsv 21 ||| cell (BitVec.ofBool m) 20 |||
    cell fmsk 16 ||| cell (BitVec.ofFin (w := 3) bfa) 13 ||| cell o.xoa 10 ||| cell fmap 6 ||| cell o.xob 0

/-- The word of an instruction (R71). -/
def encode (A : OpAssign) : Instr → InsnWord
  | .crrweird rt bfa m fmsk fmap        => cw2Word A.crrweird rt m fmsk bfa fmap false
  | .crrweirdRc rt bfa m fmsk fmap      => cw2Word A.crrweird rt m fmsk bfa fmap true
  | .mfcrrweird rt bfa fmsk fmap rsvM   => cw2Word A.mfcrrweird rt rsvM fmsk bfa fmap false
  | .mfcrrweirdRc rt bfa fmsk fmap rsvM => cw2Word A.mfcrrweird rt rsvM fmsk bfa fmap true
  | .mtcrrweird bf ra m fmsk fmap       => cwWord A.mtcrrweird ra m fmsk bf fmap
  | .mtcrweird bf ra m fmsk fmap        => cwWord A.mtcrweird ra m fmsk bf fmap
  | .mcrfm bf bfa m fmsk fmap rsv       => cwFieldWord A.mcrfm bf rsv m fmsk bfa fmap
  | .crweirder bt bfa m fmsk fmap       => cwWord A.crweirder bt m fmsk bfa fmap

/-- The bytes of an instruction in storage. -/
def encodeBytes (cfg : Config) (i : Instr) : List Byte :=
  bytesOfWord cfg.insnByteOrder (encode cfg.opAssign i)

/-! ## The parameters the model is given at reset -/

/-- `OpAssign.test` (R74): the spec's own test-only numbers, in no source. -/
def OpAssign.test : OpAssign where
  crrweird   := { po := 22, xoa := 0, xob := 0b10110 }
  mfcrrweird := { po := 22, xoa := 1, xob := 0b10110 }
  mtcrrweird := { po := 22, xoa := 2, xob := 0b101100 }
  mtcrweird  := { po := 22, xoa := 3, xob := 0b101100 }
  mcrfm      := { po := 22, xoa := 4, xob := 0b101100 }
  crweirder  := { po := 22, xoa := 5, xob := 0b101100 }

/-- The parameters of the state after reset. DESIGN CHOICE (log entries 1, 2 and 13): the test-only opcode
numbers, big-endian fetch, and no name for the version of the base ISA. The switch of R77 is off, as the spec's rule has it (log entry 9). -/
def Config.atReset : Config where
  opAssign := OpAssign.test
  insnByteOrder := .be
  baseIsaVersion := ""
  mfcrrweirdIgnoresM := false

/-- The instruction the decoder reads from the low `nbits` bits of `w`, laid out in storage in the
byte order at reset, the bits above `nbits` zero. -/
def decodeTableWord (nbits w : Nat) : Option Instr :=
  match decodeBytes Config.atReset
      (bytesOfWord Config.atReset.insnByteOrder (BitVec.ofNat 32 (w % 2 ^ nbits))) with
  | .ok (i, _) => some i
  | .error _   => none

/-! ## Pseudo-ops (R84) -/

/-- `mtcri BF, fmap` = `mtcrweird BF, r0, 0, 0b1111, ~fmap`. -/
def mtcri (bf : CrFieldNum) (fmap : Nibble) : Instr := .mtcrweird bf 0 false 0b1111 (~~~fmap)

/-- `mtcrset BF, fmsk` = `mtcrweird BF, r0, 1, fmsk, 0b0000`. -/
def mtcrset (bf : CrFieldNum) (fmsk : Nibble) : Instr := .mtcrweird bf 0 true fmsk 0b0000

/-- `mtcrclr BF, fmsk` = `mtcrweird BF, r0, 1, fmsk, 0b1111`. -/
def mtcrclr (bf : CrFieldNum) (fmsk : Nibble) : Instr := .mtcrweird bf 0 true fmsk 0b1111

end Sys2Proof
end

