-- ==== Sys2Proof/Machine/State.lean ====
section
/-! DEFINITION. The state of the machine (10_state.md), the reasons a step stops (R152), and the state
after reset. State is plain data. -/

namespace Sys2Proof.Machine

/-- Storage: address and byte pairs, addresses strictly rising (`Memory.wf`). -/
abbrev Memory := List Host.Cell

/-- Everything the spec gives the machine. `programBase`, `programLength`, `mem` and `cfg` are inputs of
the launch that no instruction writes (R32, R42). -/
structure State where
  /-- `x[0]` to `x[31]` (R20). -/
  gpr : Vector Dword 32
  /-- The address of the instruction being executed (R23). -/
  pc : Dword
  /-- The Condition Register; its most significant bit is CR bit 32 (R25). -/
  cr : BitVec 32
  /-- `XER.SO` (R29). -/
  xerSO : Bool
  /-- The bytes of the program text (R42, R46). -/
  mem : Memory
  /-- `ProgramBase`, the address of the first word of the text (R42). -/
  programBase : Dword
  /-- `ProgramLength`, the number of words of the text (R42). -/
  programLength : Nat
  /-- The open parameters `OpAssign` (R72), `InsnByteOrder` (R43), `BaseIsaVersion` (R6) and the switch of
  R77. -/
  cfg : Config
  deriving DecidableEq, Repr

/-- The faults (R152). A faulting step saves nothing and goes nowhere (R156). -/
inductive Fault where
  /-- Raised by `step` when the word fetched matches no row of the opcode map; it records the word and
  the pc (R75, R150). Safe: a chip would run or trap such a word, the model stops. -/
  | illegalInstruction (word : InsnWord) (pc : Dword)
  /-- Raised by `step` when no word can be fetched at `pc` and the run is not over (R42, R151). Safe. -/
  | fetchFault (addr : Dword)
  deriving DecidableEq, Repr

/-- The refusals. -/
inductive Refusal where
  /-- An instruction without a meaning in this model; no arm of `exec` uses it. Safe. -/
  | notModelled (mnemonic : String)
  /-- Raised by the meanings of `mcrfm` (bits 9:10, R76) and `mfcrrweird[.]` (bit 11, R77) when a
  reserved bit of the word is 1; it records the word. Safe: the spec gives such a word no meaning. -/
  | reservedFieldNonZero (word : InsnWord)
  /-- Raised by the assembler front end for an `sv.` mnemonic, and by the transcribed vector loops where
  the spec leaves the outcome unsettled (R130, R152). `step` never raises it. Safe. -/
  | svp64NotModelled
  /-- Raised by `step` at the end address: the run is over, in a final state that is not a fault, and
  has no next state (R42; log entry 5). Safe. -/
  | endOfRun
  deriving DecidableEq, Repr

/-- The state after reset. The spec gives no value to any of it (R33, R170). DESIGN CHOICE: zero for
every register (log entry 3), address 0 and no program (log entry 4), and the parameters of
`Config.atReset` (log entries 1, 2, 9 and 13). -/
def State.reset : State where
  gpr := Vector.replicate 32 0
  pc := 0
  cr := 0
  xerSO := false
  mem := []
  programBase := 0
  programLength := 0
  cfg := Config.atReset

/-- A step's answer. -/
abbrev Result := Host.Outcome State Fault Refusal

end Sys2Proof.Machine
end

