-- ==== Sys2Proof/Machine/Ops.lean ====
section
/-! DEFINITION. The named operations over registers, the Condition Register, storage and the pc, and the
one way each non-normal outcome is raised (00_scope.md R17, 60_exceptions.md). -/

namespace Sys2Proof.Machine

/-! ## General registers (R20) -/

/-- `x[i]`. No register is hardwired: `x[0]` is ordinary (R20). -/
def State.readGpr (s : State) (i : GprNum) : Dword := s.gpr[i]

/-- `x[i] <- v`. -/
def State.writeGpr (s : State) (i : GprNum) (v : Dword) : State := { s with gpr := s.gpr.set i v }

/-! ## The Condition Register (R25) -/

/-- `CRF(k)`: `(CR >> (28 - 4k)) & 15`. -/
def crField (cr : BitVec 32) (k : CrFieldNum) : Nibble := (cr >>> (28 - 4 * k.val)).setWidth 4

/-- The CR with `CRF(k)` replaced by `v`, the other 28 bits kept. -/
def crFieldSet (cr : BitVec 32) (k : CrFieldNum) (v : Nibble) : BitVec 32 :=
  cr &&& ~~~(15#32 <<< (28 - 4 * k.val)) ||| v.setWidth 32 <<< (28 - 4 * k.val)

/-- `CRbit(j)`: `(CR >> (31 - j)) & 1`, the bit the source calls `CR[32+j]`. -/
def crBit (cr : BitVec 32) (j : CrBitNum) : Bool := cr.getLsbD (31 - j.val)

/-- The CR with `CRbit(j)` replaced by `b`, the other 31 bits kept. -/
def crBitSet (cr : BitVec 32) (j : CrBitNum) (b : Bool) : BitVec 32 :=
  cr &&& ~~~(1#32 <<< (31 - j.val)) ||| (BitVec.ofBool b).setWidth 32 <<< (31 - j.val)

/-- `CRF(k)` of a state. -/
def State.readCrField (s : State) (k : CrFieldNum) : Nibble := crField s.cr k

/-- `CRF(k) <- v`. -/
def State.writeCrField (s : State) (k : CrFieldNum) (v : Nibble) : State :=
  { s with cr := crFieldSet s.cr k v }

/-- `CRbit(j) <- b`. -/
def State.writeCrBit (s : State) (j : CrBitNum) (b : Bool) : State :=
  { s with cr := crBitSet s.cr j b }

/-! ## The pc (R24) -/

/-- `pc <- (pc + 4) mod 2^64`. -/
def State.advancePc (s : State) : State := { s with pc := s.pc + 4 }

/-! ## Storage (R40, R46) -/

/-- What an address no entry lists reads as: no byte. The map is the program text and nothing else, and
every address outside it is unmapped (R46; log entry 6). -/
def unlistedByte : Option Byte := none

/-- The byte at an address. -/
def Memory.read : Memory → Nat → Option Byte
  | [], _          => unlistedByte
  | (a, b) :: m, k => if k = a then some b else Memory.read m k

/-- Storage with one byte placed. No instruction stores (R41): only a launch places bytes. No byte equals
what an unlisted address reads as, so a write never removes an entry. -/
def Memory.write : Memory → Nat → Byte → Memory
  | [], k, v          => [(k, v)]
  | (a, b) :: m, k, v =>
    if k < a then (k, v) :: (a, b) :: m
    else if k = a then (k, v) :: m
    else (a, b) :: Memory.write m k v

/-- The canonical form: addresses strictly rising and inside the 64-bit address space. -/
def Memory.wf : Memory → Bool
  | []          => true
  | (a, _) :: m => decide (a < 2 ^ 64) && m.all (fun c => decide (a < c.1)) && Memory.wf m

/-! ## Faults and refusals

The spec has no trap entry and no return: a fault or a refusal saves no state, changes no mode and
transfers control nowhere, and a faulted state has no successor (R156, R157). So an outcome that stops
carries its reason and no state. -/

/-- `raise IllegalInstruction(word)`, recording the word and the pc (R150). -/
def raiseIllegalInstruction (s : State) (w : InsnWord) : Result :=
  .fault (.illegalInstruction w s.pc)

/-- `raise FetchFault(pc)` (R151). -/
def raiseFetchFault (s : State) : Result := .fault (.fetchFault s.pc)

/-- `refuse ReservedFieldNonZero` (R76, R77) for an instruction; the word recorded is the encoder's,
which is the word fetched. -/
def refuseReserved (s : State) (i : Instr) : Result :=
  .refused (.reservedFieldNonZero (encode s.cfg.opAssign i))

end Sys2Proof.Machine
end

