-- ==== Sys2Proof/Machine/Operands.lean ====
section
/-! DEFINITION. The operand forms: how each source operand becomes the value under test
(00_scope.md R15, 10_state.md R21). -/

namespace Sys2Proof.Machine

/-- `(RA|0)`: zero when the field is 0, else the register (R15). -/
def State.ra0 (s : State) (ra : GprNum) : Dword := if ra = 0 then 0 else s.readGpr ra

/-- `creg = a[60:63]` of `mtcrrweird`: the low four bits of the register (R110). -/
def lowNibble (a : Dword) : Nibble := a.setWidth 4

/-- `creg = reg[63] || reg[63] || reg[63] || reg[63]` of `mtcrweird`: the low bit, four times (R111). -/
def lowBitFourTimes (reg : Dword) : Nibble := if reg.getLsbD 0 then 15 else 0

/-- `[0] * 63 || result`: a 1-bit result in a 64-bit register (R9). -/
def zextBit (b : Bool) : Dword := (BitVec.ofBool b).setWidth 64

/-- `[0] * 60 || result`: a 4-bit result in a 64-bit register (R9). -/
def zextNibble (v : Nibble) : Dword := v.setWidth 64

end Sys2Proof.Machine
end

