-- ==== Sys2Proof/Machine/Flags.lean ====
section
/-! DEFINITION. The flag computations: the match word, its reduction to a verdict, the merge of M = 1,
and the record of CR0 (00_scope.md R12, 10_state.md R28). -/

namespace Sys2Proof.Machine

/-- The match word `(¬fmap ^ creg) & fmsk` (R12). -/
def matchWord (creg fmsk fmap : Nibble) : Nibble := (~~~fmap ^^^ creg) &&& fmsk

/-- `(n != 0) if M else (n == fmsk)` (R100, R121). -/
def verdict (m : Bool) (n fmsk : Nibble) : Bool := if m then n != 0 else n == fmsk

/-- `if M: result |= old & ~fmsk` (R110, R111, R120). -/
def mergeField (m : Bool) (result old fmsk : Nibble) : Nibble :=
  if m then result ||| (old &&& ~~~fmsk) else result

/-- `analyse(v, so)`: LT, GT, EQ from the signed comparison of `v` with 0, then SO (R28). The source does
not define it; the spec fixes it to the Power ISA's record rule and keeps it replaceable (log entry 8). -/
def analyse (v : Dword) (so : Bool) : Nibble :=
  BitVec.ofBool (v.slt 0) ++ BitVec.ofBool ((0#64).slt v) ++ BitVec.ofBool (v == 0) ++ BitVec.ofBool so

/-- `CRF(0) <- analyse(x[RT], XER.SO)` (R101, R103): the record of Rc = 1, on the register just written. -/
def State.recordCr0 (s : State) (rt : GprNum) : State :=
  s.writeCrField 0 (analyse (s.readGpr rt) s.xerSO)

end Sys2Proof.Machine
end

