-- ==== Sys2Proof/Machine/CrToGpr.lean ====
section
/-! DEFINITION. The meanings of `crrweird[.]` and `mfcrrweird[.]` (40_cr_to_gpr.md). -/

namespace Sys2Proof.Machine

/-- The test of `crrweird` on the CR of a state (R100, R104). -/
def State.testCrField (s : State) (bfa : CrFieldNum) (m : Bool) (fmsk fmap : Nibble) : Bool :=
  verdict m (matchWord (s.readCrField bfa) fmsk fmap) fmsk

/-- `crrweird` (R100). -/
def execCrrweird (rt : GprNum) (bfa : CrFieldNum) (m : Bool) (fmsk fmap : Nibble) (s : State) : Result :=
  .next (s.writeGpr rt (zextBit (s.testCrField bfa m fmsk fmap))).advancePc

/-- `crrweird.` (R101): the field is read from the old CR, and CR0 is written last. -/
def execCrrweirdRc (rt : GprNum) (bfa : CrFieldNum) (m : Bool) (fmsk fmap : Nibble) (s : State) : Result :=
  .next ((s.writeGpr rt (zextBit (s.testCrField bfa m fmsk fmap))).recordCr0 rt).advancePc

/-- `mfcrrweird` (R102). A word with M = 1 is refused, unless the switch of R77 is on. -/
def execMfcrrweird (rt : GprNum) (bfa : CrFieldNum) (fmsk fmap : Nibble) (rsvM : Bool) (s : State) : Result :=
  if rsvM && !s.cfg.mfcrrweirdIgnoresM then refuseReserved s (.mfcrrweird rt bfa fmsk fmap rsvM)
  else .next (s.writeGpr rt (zextNibble (matchWord (s.readCrField bfa) fmsk fmap))).advancePc

/-- `mfcrrweird.` (R103): as `mfcrrweird`, and CR0 is written last. -/
def execMfcrrweirdRc (rt : GprNum) (bfa : CrFieldNum) (fmsk fmap : Nibble) (rsvM : Bool) (s : State) : Result :=
  if rsvM && !s.cfg.mfcrrweirdIgnoresM then refuseReserved s (.mfcrrweirdRc rt bfa fmsk fmap rsvM)
  else
    .next ((s.writeGpr rt (zextNibble (matchWord (s.readCrField bfa) fmsk fmap))).recordCr0 rt).advancePc

end Sys2Proof.Machine
end

