-- ==== Sys2Proof/Machine/CrToCr.lean ====
section
/-! DEFINITION. The meanings of `mcrfm` and `crweirder` (42_cr_to_cr.md). -/

namespace Sys2Proof.Machine

/-- `mcrfm` (R120): the selected bits of the source field, merged with the old field when M = 1, then
`^ fmap` on all four bits. A word with bit 9 or 10 set is refused (R76). -/
def execMcrfm (bf bfa : CrFieldNum) (m : Bool) (fmsk fmap : Nibble) (rsv : BitVec 2) (s : State) : Result :=
  if rsv != 0 then refuseReserved s (.mcrfm bf bfa m fmsk fmap rsv)
  else
    .next (s.writeCrField bf
      (mergeField m (fmsk &&& s.readCrField bfa) (s.readCrField bf) fmsk ^^^ fmap)).advancePc

/-- `crweirder` (R121): the test of `crrweird`, written into one CR bit. -/
def execCrweirder (bt : CrBitNum) (bfa : CrFieldNum) (m : Bool) (fmsk fmap : Nibble) (s : State) : Result :=
  .next (s.writeCrBit bt (s.testCrField bfa m fmsk fmap)).advancePc

end Sys2Proof.Machine
end

