-- ==== Sys2Proof/Machine/GprToCr.lean ====
section
/-! DEFINITION. The meanings of `mtcrrweird` and `mtcrweird` (41_gpr_to_cr.md). -/

namespace Sys2Proof.Machine

/-- What the two instructions share once `creg` is known: the match word, the merge of M = 1, and the
write of `CRF(BF)` (R110, R111). -/
def State.matchIntoCrField (s : State) (bf : CrFieldNum) (creg : Nibble) (m : Bool) (fmsk fmap : Nibble) : State :=
  s.writeCrField bf (mergeField m (matchWord creg fmsk fmap) (s.readCrField bf) fmsk)

/-- `mtcrrweird` (R110). -/
def execMtcrrweird (bf : CrFieldNum) (ra : GprNum) (m : Bool) (fmsk fmap : Nibble) (s : State) : Result :=
  .next (s.matchIntoCrField bf (lowNibble (s.ra0 ra)) m fmsk fmap).advancePc

/-- `mtcrweird` (R111). -/
def execMtcrweird (bf : CrFieldNum) (ra : GprNum) (m : Bool) (fmsk fmap : Nibble) (s : State) : Result :=
  .next (s.matchIntoCrField bf (lowBitFourTimes (s.ra0 ra)) m fmsk fmap).advancePc

end Sys2Proof.Machine
end

