-- ==== Sys2Proof/Machine/Dispatch.lean ====
section
/-! DEFINITION. One arm for each constructor of `Instr`: each calls its meaning. -/

namespace Sys2Proof.Machine

def exec (i : Instr) (s : State) : Host.Outcome State Fault Refusal :=
  match i with
  | .crrweird rt bfa m fmsk fmap => Sys2Proof.Machine.execCrrweird rt bfa m fmsk fmap s
  | .crrweirdRc rt bfa m fmsk fmap => Sys2Proof.Machine.execCrrweirdRc rt bfa m fmsk fmap s
  | .mfcrrweird rt bfa fmsk fmap rsvM => Sys2Proof.Machine.execMfcrrweird rt bfa fmsk fmap rsvM s
  | .mfcrrweirdRc rt bfa fmsk fmap rsvM => Sys2Proof.Machine.execMfcrrweirdRc rt bfa fmsk fmap rsvM s
  | .mtcrrweird bf ra m fmsk fmap => Sys2Proof.Machine.execMtcrrweird bf ra m fmsk fmap s
  | .mtcrweird bf ra m fmsk fmap => Sys2Proof.Machine.execMtcrweird bf ra m fmsk fmap s
  | .mcrfm bf bfa m fmsk fmap rsv => Sys2Proof.Machine.execMcrfm bf bfa m fmsk fmap rsv s
  | .crweirder bt bfa m fmsk fmap => Sys2Proof.Machine.execCrweirder bt bfa m fmsk fmap s

end Sys2Proof.Machine
end

