-- ==== Sys2Proof/Machine/Fetch.lean ====
section
/-! DEFINITION. The program text, instruction fetch and the end of a run (20_memory.md R40 to R44). -/

namespace Sys2Proof.Machine

/-- `pc` is inside `[ProgramBase, ProgramBase + 4*ProgramLength)` (R42). -/
def State.inText (s : State) : Bool :=
  decide (s.programBase.toNat ≤ s.pc.toNat) &&
    decide (s.pc.toNat < s.programBase.toNat + 4 * s.programLength)

/-- `ProgramBase + 4*ProgramLength` as a value of `pc` (R42). DEDUCED (log entry 5): the sum is taken
modulo 2^64, as `pc` is. -/
def State.endAddress (s : State) : Dword := s.programBase + BitVec.ofNat 64 (4 * s.programLength)

/-- The run is over (R42): `pc` is the end address. An address inside the text is fetched from and is
not the end, which matters only for a text that fills the address space (log entry 5). -/
def State.isFinal (s : State) : Bool := !s.inText && s.pc == s.endAddress

/-- The byte at `pc + k`. -/
def State.fetchByte (s : State) (k : Nat) : Option Byte :=
  Memory.read s.mem (s.pc + BitVec.ofNat 64 k).toNat

/-- `MemRead(pc, 4)` assembled into a word (R40, R43); `none` where there is no word to fetch: `pc`
outside the text (R42), not 4-byte aligned (R44; DEDUCED, log entry 7), or a byte unmapped. -/
def State.fetchWord (s : State) : Option InsnWord :=
  if s.inText && s.pc.toNat % 4 == 0 then
    match s.fetchByte 0, s.fetchByte 1, s.fetchByte 2, s.fetchByte 3 with
    | some b0, some b1, some b2, some b3 => some (wordOfBytes s.cfg.insnByteOrder b0 b1 b2 b3)
    | _, _, _, _ => none
  else none

end Sys2Proof.Machine
end

