-- ==== Sys2Proof/Machine/Launch.lean ====
section
/-! DEFINITION. The launch (R42, R170, R171): how a program, a start address and the register contents
come into the machine. -/

namespace Sys2Proof.Machine

/-- The four bytes of a word at an address (R42, R43). -/
def wordCells (ord : ByteOrder) (a : Nat) (w : InsnWord) : Memory :=
  [(a, byteOfWord ord w 0), (a + 1, byteOfWord ord w 1), (a + 2, byteOfWord ord w 2),
    (a + 3, byteOfWord ord w 3)]

/-- The text of a program: word `i` stands at `a + 4i` (R42). -/
def textImage (ord : ByteOrder) : Nat → List InsnWord → Memory
  | _, []      => []
  | a, w :: ws => wordCells ord a w ++ textImage ord (a + 4) ws

/-- A launch: the parameters, `ProgramBase`, the program's words, and any contents of the GPRs, the CR
and `XER.SO` (R33, R42, R170). -/
def State.launch (cfg : Config) (base : Dword) (words : List InsnWord) (gpr : Vector Dword 32)
    (cr : BitVec 32) (so : Bool) : State where
  gpr := gpr
  pc := base
  cr := cr
  xerSO := so
  mem := textImage cfg.insnByteOrder base.toNat words
  programBase := base
  programLength := words.length
  cfg := cfg

/-- Storage with the byte of `w` at offset `k` from `pc` placed. -/
def State.placeByte (s : State) (w : InsnWord) (k : Nat) (m : Memory) : Memory :=
  Memory.write m (s.pc + BitVec.ofNat 64 k).toNat (byteOfWord s.cfg.insnByteOrder w k)

/-- The state with `w` standing at `pc`. Where `pc` is outside the text, the text becomes that one word. -/
def State.placeWord (s : State) (w : InsnWord) : State :=
  let mem := s.placeByte w 3 (s.placeByte w 2 (s.placeByte w 1 (s.placeByte w 0 s.mem)))
  if s.inText then { s with mem := mem }
  else { s with mem := mem, programBase := s.pc, programLength := 1 }

end Sys2Proof.Machine
end

