-- ==== Sys2Proof/Machine/Step.lean ====
section
/-! DEFINITION. One step: fetch, recognise, check the reserved bits and execute, in the order of R155. -/

namespace Sys2Proof.Machine

/-- One step of the one hardware thread (R155, R163). At the end address the run is over (R42); where no
word can be fetched the step faults (R151); a word no row recognises is illegal (R150); the meaning of an
instruction checks its reserved bits first (R76, R77). -/
def step (s : State) : Host.Outcome State Fault Refusal :=
  if s.isFinal then .refused .endOfRun
  else
    match s.fetchWord with
    | none => raiseFetchFault s
    | some w =>
      match decodeWord s.cfg.opAssign w with
      | none   => raiseIllegalInstruction s w
      | some i => exec i s

/-- `s` with the low `nbits` bits of `w` standing at `pc` as its next instruction, the bits above them
zero (log entry 4). -/
def State.withFetchWord (s : State) (nbits w : Nat) : State :=
  s.placeWord (BitVec.ofNat 32 (w % 2 ^ nbits))

end Sys2Proof.Machine
end

