-- ==== Sys2Proof/Machine/Assemble.lean ====
section
/-! DEFINITION. The assembler front end of the spec (30_encoding.md R79 to R85, 92_eei_decisions.md D16)
on an assembler line already split into tokens: the operand lists, the operand ranges, the pseudo-ops,
and the refusal of `sv.` mnemonics. The characters of a line are not modelled (log entry 16). -/

namespace Sys2Proof.Machine

/-- An operand token (R83): `r<n>`, `cr<n>`, or a number in any base. -/
inductive AsmOperand where
  | gpr (n : Nat)
  | crField (n : Nat)
  | num (n : Nat)
  deriving DecidableEq, Repr

/-- What a mnemonic without its `sv.` prefix names: one of the eight (R73) or a pseudo-op (R84). -/
inductive AsmName where
  | insn (mn : Mnemonic)
  | mtcri
  | mtcrset
  | mtcrclr
  deriving DecidableEq, Repr

/-- A line: a mnemonic, with `sv.` before it or not (R85), and its operands in the order written. -/
structure AsmLine where
  svPrefix : Bool
  name : AsmName
  operands : List AsmOperand
  deriving DecidableEq, Repr

/-- What the assembler answers. -/
inductive AsmResult where
  | instr (i : Instr)
  /-- The operands are not the mnemonic's: another number of them, or a value outside its field (R82,
  R83). -/
  | badOperands
  | refused (r : Refusal)
  deriving DecidableEq, Repr

/-- A number below a bound, as an operand field's value; a value outside the field is an error (R83). -/
def inField (bound n : Nat) : Option (Fin bound) := if h : n < bound then some ⟨n, h⟩ else none

/-- A GPR operand: `r<n>` or a bare number (R81, R83). -/
def AsmOperand.asGpr : AsmOperand → Option GprNum
  | .gpr n     => inField 32 n
  | .num n     => inField 32 n
  | .crField _ => none

/-- A CR field operand: `cr<n>` or a bare number (R83). -/
def AsmOperand.asCrField : AsmOperand → Option CrFieldNum
  | .crField n => inField 8 n
  | .num n     => inField 8 n
  | .gpr _     => none

/-- A CR bit operand: a bare number (R70, R83). -/
def AsmOperand.asCrBit : AsmOperand → Option CrBitNum
  | .num n     => inField 32 n
  | .gpr _     => none
  | .crField _ => none

/-- M: 0 or 1 (R83). -/
def AsmOperand.asM : AsmOperand → Option Bool
  | .num n     => (inField 2 n).map fun b => b == 1
  | .gpr _     => none
  | .crField _ => none

/-- `fmsk` or `fmap`: a 4-bit literal (R83). -/
def AsmOperand.asNibble : AsmOperand → Option Nibble
  | .num n     => (inField 16 n).map fun v => BitVec.ofFin (w := 4) v
  | .gpr _     => none
  | .crField _ => none

/-- The operand lists of R80 to R82 and R84. The assembler writes 0 in the reserved bits (R76, R77). -/
def assembleOperands : AsmName → List AsmOperand → Option Instr
  | .insn .crrweird, [rt, bfa, m, fmsk, fmap] => do
    return .crrweird (← rt.asGpr) (← bfa.asCrField) (← m.asM) (← fmsk.asNibble) (← fmap.asNibble)
  | .insn .crrweirdRc, [rt, bfa, m, fmsk, fmap] => do
    return .crrweirdRc (← rt.asGpr) (← bfa.asCrField) (← m.asM) (← fmsk.asNibble) (← fmap.asNibble)
  | .insn .mfcrrweird, [rt, bfa, fmsk, fmap] => do
    return .mfcrrweird (← rt.asGpr) (← bfa.asCrField) (← fmsk.asNibble) (← fmap.asNibble) false
  | .insn .mfcrrweirdRc, [rt, bfa, fmsk, fmap] => do
    return .mfcrrweirdRc (← rt.asGpr) (← bfa.asCrField) (← fmsk.asNibble) (← fmap.asNibble) false
  | .insn .mtcrrweird, [bf, ra, m, fmsk, fmap] => do
    return .mtcrrweird (← bf.asCrField) (← ra.asGpr) (← m.asM) (← fmsk.asNibble) (← fmap.asNibble)
  | .insn .mtcrweird, [bf, ra, m, fmsk, fmap] => do
    return .mtcrweird (← bf.asCrField) (← ra.asGpr) (← m.asM) (← fmsk.asNibble) (← fmap.asNibble)
  | .insn .mcrfm, [bf, bfa, m, fmsk, fmap] => do
    return .mcrfm (← bf.asCrField) (← bfa.asCrField) (← m.asM) (← fmsk.asNibble) (← fmap.asNibble) 0
  | .insn .crweirder, [bt, bfa, m, fmsk, fmap] => do
    return .crweirder (← bt.asCrBit) (← bfa.asCrField) (← m.asM) (← fmsk.asNibble) (← fmap.asNibble)
  | .mtcri, [bf, fmap] => do return Sys2Proof.mtcri (← bf.asCrField) (← fmap.asNibble)
  | .mtcrset, [bf, fmsk] => do return Sys2Proof.mtcrset (← bf.asCrField) (← fmsk.asNibble)
  | .mtcrclr, [bf, fmsk] => do return Sys2Proof.mtcrclr (← bf.asCrField) (← fmsk.asNibble)
  | _, _ => none

/-- The front end: an `sv.` mnemonic is refused (R130). -/
def assemble (l : AsmLine) : AsmResult :=
  if l.svPrefix then .refused .svp64NotModelled
  else
    match assembleOperands l.name l.operands with
    | some i => .instr i
    | none   => .badOperands

end Sys2Proof.Machine
end

