-- ==== Sys2Proof/Machine/Svp64.lean ====
section
/-! DEFINITION. What 43_svp64_vectorised.md transcribes of the SVP64-prefixed forms, as functions of the
inputs the spec takes from outside (`VL`, the operand flags, the map-reduce flag, the predicate masks). No
step reaches them: the model runs no prefixed form (R130, R86, log entry 12). A loop is modelled as the list
of register writes it performs, in order, so that nothing is said of a bit it does not write (R135, U11,
U12). -/

namespace Sys2Proof.Machine

/-- The class of SVP64 operation (R131). -/
inductive SvClass where
  | normal
  | crOps
  deriving DecidableEq, Repr

/-- What a section says the prefixed form can use (R105, R113, R123, R131). -/
structure SvCapability where
  cls : SvClass
  /-- "can use Rc=1". -/
  rc1Record : Bool
  /-- "RC1 Data-dependent Mode capability". -/
  rc1DataDependent : Bool
  /-- The width in "3-bit" or "5-bit Data-dependent", where one is given. -/
  dataDependentBits : Option Nat
  /-- The width in "3-bit Predicate-result capability", where one is given. -/
  predicateResultBits : Option Nat
  deriving DecidableEq, Repr

/-- The class and capabilities of each instruction (R131). -/
def svCapability : Mnemonic → SvCapability
  | .crrweird     => ⟨.normal, true, true, none, none⟩
  | .crrweirdRc   => ⟨.normal, true, true, none, none⟩
  | .mfcrrweird   => ⟨.normal, true, true, none, none⟩
  | .mfcrrweirdRc => ⟨.normal, true, true, none, none⟩
  | .mtcrrweird   => ⟨.normal, false, true, none, none⟩
  | .mtcrweird    => ⟨.crOps, false, false, some 3, some 3⟩
  | .mcrfm        => ⟨.crOps, false, false, some 3, some 3⟩
  | .crweirder    => ⟨.crOps, false, false, some 5, none⟩

/-- The inputs of the transcribed forms that the machine does not hold (R31, R131, R133). -/
structure SvInputs where
  /-- `VL`. -/
  vl : Nat
  /-- `RT.isvec`. -/
  rtIsvec : Bool
  /-- `RT.elwidth`. -/
  rtElwidth : BitVec 2
  /-- `BB.isvec`. -/
  bbIsvec : Bool
  /-- `BB.elwidth`, reused as the packing count. -/
  bbElwidth : BitVec 2
  /-- `SVRM.mapreduce`. -/
  mapreduce : Bool
  /-- `dm`, the contents of the destination predicate mask, if one is named; a mask taken inverted is given
  inverted. -/
  dm : Option Dword
  /-- `sm`, the same of the source. -/
  sm : Option Dword
  /-- `dz`, destination zeroing. -/
  dz : Bool
  deriving DecidableEq, Repr

/-- One assignment `iregs[reg][first:last] = value` in MSB0 bit numbers (R18). -/
structure IregWrite where
  reg : Nat
  first : Nat
  last : Nat
  value : Nat
  deriving DecidableEq, Repr

/-- One assignment `CR{field} = value` (R18, R140). -/
structure CrWrite where
  field : Nat
  value : Nibble
  deriving DecidableEq, Repr

/-! ## Element widths (R131) -/

/-- `RT.elwidth` in bits: `{0b00:64, 0b01:8, 0b10:16, 0b11:32}`. -/
def destElwidthBits (elwidth : BitVec 2) : Nat :=
  match elwidth.toNat with
  | 0 => 64
  | 1 => 8
  | 2 => 16
  | _ => 32

/-- A destination element width override: any width but the default. -/
def destOverride (inp : SvInputs) : Bool := destElwidthBits inp.rtElwidth != 64

/-- `BB.elwidth` as a packing count: 1, 2, 4, 8. -/
def packCount (elwidth : BitVec 2) : Nat := 2 ^ elwidth.toNat

/-- The divisor of the `sv.mfcrrweird` loop: 1, 2, `t4 = min(4, bwid//2)` or `t8 = min(8, bwid//2)` (R138). -/
def nibblesPerRegister (inp : SvInputs) : Nat :=
  let bwid := destElwidthBits inp.rtElwidth
  match inp.bbElwidth.toNat with
  | 0 => 1
  | 1 => 2
  | 2 => min 4 (bwid / 2)
  | _ => min 8 (bwid / 2)

/-! ## Elements and predication -/

/-- The elements the two GPR loops visit: all of `range(VL)`, or the first alone where a scalar RT without
map-reduce breaks out (R134, R138). -/
def svElements (inp : SvInputs) : List Nat :=
  if inp.rtIsvec || inp.mapreduce then List.range inp.vl else List.range (min 1 inp.vl)

/-- The bit of `dm` for element `i`, counted from the least significant (R140); set where no mask is named. -/
def svActive (inp : SvInputs) (i : Nat) : Bool :=
  match inp.dm with
  | none   => true
  | some d => d.getLsbD i

/-- What the source settles of predication: no `sm`, and every element has a mask bit that is set or is zeroed
by `dz` (R131, R140). It says nothing of a source mask, of an element masked out without zeroing, or of one
past the mask's 64 bits (N10; log entry 12). -/
def svSettled (inp : SvInputs) (elements : List Nat) : Bool :=
  inp.sm.isNone &&
    elements.all fun i => inp.dm.isNone || (decide (i < 64) && (svActive inp i || inp.dz))

/-- The result of an element: zero where its predicate bit is 0, the mask being zeroing (R131). -/
def svResult {α : Type} (inp : SvInputs) (i : Nat) (zero n : α) : α := if svActive inp i then n else zero

/-- The field tested for element `i`: `CR{BB+i}` for a vector source, `CR{BB}` for a scalar one. `CR{k}`
is an input, since fields above 7 live outside this machine (R18). -/
def svSource (inp : SvInputs) (crOf : Nat → Nibble) (bb i : Nat) : Nibble :=
  if inp.bbIsvec then crOf (bb + i) else crOf bb

/-- A scalar RT has room for `limit` elements: exceeding it is UNDEFINED, which only map-reduce can do, since
otherwise the loop stops after element 0 (U1, U2). -/
def svOverflows (inp : SvInputs) (limit : Nat) : Bool := inp.mapreduce && decide (limit < inp.vl)

/-! ## The transcribed forms -/

/-- The writes of `sv.crrweird` (R134). Refused where the spec refuses even for a model that adds SVP64: a
scalar RT with `VL` over 64 (U1), a vector RT with a destination element width override (U3); and where it
settles no predication. -/
def svCrrweird (inp : SvInputs) (rt bb : Nat) (m : Bool) (fmsk fmap : Nibble) (crOf : Nat → Nibble) :
    Except Refusal (List IregWrite) :=
  let result (i : Nat) : Nat :=
    svResult inp i 0 (verdict m (matchWord (svSource inp crOf bb i) fmsk fmap) fmsk).toNat
  if !svSettled inp (svElements inp) then .error .svp64NotModelled
  else if inp.rtIsvec then
    if destOverride inp then .error .svp64NotModelled
    else
      let k := packCount inp.bbElwidth
      .ok ((svElements inp).flatMap fun i =>
        [⟨rt + i / k, 0, 63 - k, 0⟩, ⟨rt + i / k, 63 - i % k, 63 - i % k, result i⟩])
  else if svOverflows inp 64 then .error .svp64NotModelled
  else .ok ((svElements inp).map fun i => ⟨rt, 63 - i, 63 - i, result i⟩)

/-- The writes of `sv.mfcrrweird` (R138). Refused: a scalar RT with `VL` over 16 (U2), a vector RT with a
destination element width override, where the loop and its prose disagree (R139, C7), and unsettled
predication. -/
def svMfcrrweird (inp : SvInputs) (rt bb : Nat) (fmsk fmap : Nibble) (crOf : Nat → Nibble) :
    Except Refusal (List IregWrite) :=
  let store (idx boff i : Nat) : IregWrite :=
    ⟨rt + idx, 60 - boff * 4, 63 - boff * 4,
      svResult inp i 0 (matchWord (svSource inp crOf bb i) fmsk fmap).toNat⟩
  if !svSettled inp (svElements inp) then .error .svp64NotModelled
  else if inp.rtIsvec then
    if destOverride inp then .error .svp64NotModelled
    else
      let k := nibblesPerRegister inp
      .ok ((svElements inp).map fun i => store (i / k) (i % k) i)
  else if svOverflows inp 16 then .error .svp64NotModelled
  else .ok ((svElements inp).map fun i => store 0 i i)

/-- The writes of `sv.mtcrweird` with a vector BF, as the one worked example has them (R140): element `i`
writes `CR{BF+i}` with the scalar rule's result on a zero source (R111), or with zero where its predicate bit
is 0. M, which the example does not name (C5), is an operand as in the scalar rule (log entry 12). Refused: RA
other than 0, since no pseudocode says which bit element `i` reads (N12), and unsettled predication. -/
def svMtcrweird (inp : SvInputs) (bf : Nat) (ra : GprNum) (m : Bool) (fmsk fmap : Nibble) (crOf : Nat → Nibble) :
    Except Refusal (List CrWrite) :=
  if ra != 0 || !svSettled inp (List.range inp.vl) then .error .svp64NotModelled
  else
    .ok ((List.range inp.vl).map fun i =>
      ⟨bf + i, svResult inp i 0 (mergeField m (matchWord (lowBitFourTimes 0) fmsk fmap) (crOf (bf + i)) fmsk)⟩)

end Sys2Proof.Machine
end

