-- ==== Sys2Proof/Safety.lean ====
section
/-! DEFINITION. The vocabulary of the claims: the launch premises (R171), the invariant of a run, what a
run keeps, the spec's own words for a test of a CR field, said of single bits (R12, R104), the fields of an
assembler line (R79 to R84), and the predication of a vector form (R131, R140). -/

namespace Sys2Proof.Machine

/-! ## The launch premises of R171. `NoFaultRecorded` holds of every state: a fault or a refusal is an
outcome of a step, and no state records one (log entry 21). -/

/-- `AlignedPc`: `pc[1:0] = 0`. -/
def State.AlignedPc (s : State) : Prop := s.pc.toNat % 4 = 0

/-- `TextFits`: `ProgramBase + 4*ProgramLength <= 2^64`. -/
def State.TextFits (s : State) : Prop := s.programBase.toNat + 4 * s.programLength ≤ 2 ^ 64

/-- `PcAtBase`: `pc = ProgramBase`. -/
def State.PcAtBase (s : State) : Prop := s.pc = s.programBase

/-! ## The invariant of a run -/

/-- What holds at every launch that the spec admits and is kept by every step: storage in canonical form,
`pc` aligned and in the text or at its end, the text fitting below 2^64 and wholly mapped. -/
structure State.Inv (s : State) : Prop where
  memWf : Memory.wf s.mem = true
  alignedPc : s.AlignedPc
  alignedBase : s.programBase.toNat % 4 = 0
  textFits : s.TextFits
  textMapped : ∀ a, s.programBase.toNat ≤ a → a < s.programBase.toNat + 4 * s.programLength →
    (Memory.read s.mem a).isSome = true
  pcInRun : s.inText = true ∨ s.isFinal = true

/-! ## What is unchanged -/

/-- `t` is the state after `s` as far as every instruction goes: `pc` moved on by 4 (R24), `XER.SO` (R29),
every byte of storage (R41, R52) and the launch's parameters (R32) as before. GPRs and the CR are left to
the claim. -/
structure Advanced (s t : State) : Prop where
  pc : t.pc = s.pc + 4
  xerSO : t.xerSO = s.xerSO
  memory : ∀ a, Memory.read t.mem a = Memory.read s.mem a
  programBase : t.programBase = s.programBase
  programLength : t.programLength = s.programLength
  cfg : t.cfg = s.cfg

/-- Every GPR but `x[rt]` is as before. -/
def GprsKeptBut (rt : GprNum) (s t : State) : Prop := ∀ r : GprNum, r ≠ rt → t.gpr[r] = s.gpr[r]

/-- CR bit `32 + q` for each `q` outside field `k` is as before. -/
def CrKeptOutside (k : CrFieldNum) (s t : State) : Prop :=
  ∀ q, q < 32 → q / 4 ≠ k.val → t.cr.getMsbD q = s.cr.getMsbD q

/-! ## Single bits, in the source's MSB0 numbering

`CR[4*k+32+p]` is `cr.getMsbD (4*k + p)`, and position `p` of `fmsk` or `fmap` is `getMsbD p`. -/

/-- Position `p` is in K of R104: selected by `fmsk`, and the field agrees with `fmap` there. -/
abbrev Agrees (cr : BitVec 32) (k : CrFieldNum) (fmsk fmap : Nibble) (p : Fin 4) : Prop :=
  fmsk.getMsbD p = true ∧ cr.getMsbD (4 * k.val + p.val) = fmap.getMsbD p

/-- The verdict of R104: with M = 1 some selected position agrees, with M = 0 every selected one does. -/
abbrev Verdict (cr : BitVec 32) (k : CrFieldNum) (m : Bool) (fmsk fmap : Nibble) : Prop :=
  if m then ∃ p : Fin 4, Agrees cr k fmsk fmap p
  else ∀ p : Fin 4, fmsk.getMsbD p = true → Agrees cr k fmsk fmap p

/-- CR0 after a record form (R101, R103): EQ set for a zero result, GT for any other, LT never, and SO a
copy of `XER.SO`; CR fields 1 to 7 as before. -/
structure Cr0Recorded (result : Nat) (s t : State) : Prop where
  lt : t.cr.getMsbD 0 = false
  gt : t.cr.getMsbD 1 = decide (result ≠ 0)
  eq : t.cr.getMsbD 2 = decide (result = 0)
  so : t.cr.getMsbD 3 = s.xerSO
  others : CrKeptOutside 0 s t

/-! ## Words as sums of their cells (R71, R62 to R65) -/

/-- A CW2-Form word: `po<<26 | RT<<21 | M<<20 | fmsk<<16 | BFA<<13 | xoa<<10 | fmap<<6 | xob<<1 | Rc`, the
cells disjoint, so their sum. -/
def cw2Sum (o : Cw2Opcode) (rt m fmsk bfa fmap rc : Nat) : Nat :=
  o.po.toNat * 2 ^ 26 + rt * 2 ^ 21 + m * 2 ^ 20 + fmsk * 2 ^ 16 + bfa * 2 ^ 13 + o.xoa.toNat * 2 ^ 10 +
    fmap * 2 ^ 6 + o.xob.toNat * 2 + rc

/-- A CW-Form word: `po<<26 | A<<21 | M<<20 | fmsk<<16 | B<<13 | xoa<<10 | fmap<<6 | xob`, where `A` is the
five bits 6:10 (RA, BT, or BF and the blank cell) and `B` the three bits 16:18. -/
def cwSum (o : CwOpcode) (a m fmsk b fmap : Nat) : Nat :=
  o.po.toNat * 2 ^ 26 + a * 2 ^ 21 + m * 2 ^ 20 + fmsk * 2 ^ 16 + b * 2 ^ 13 + o.xoa.toNat * 2 ^ 10 +
    fmap * 2 ^ 6 + o.xob.toNat

/-- R69: the slice `insn[lo+n-1:lo]` of a word as a number. -/
def sliceOf (w : InsnWord) (lo n : Nat) : Nat := w.toNat / 2 ^ lo % 2 ^ n

/-- R69 of a CW2-Form word: RT, BFA, M, fmsk, fmap and Rc. -/
def Cw2Fields (w : InsnWord) (rt : GprNum) (bfa : CrFieldNum) (m : Bool) (fmsk fmap : Nibble) (rc : Nat) : Prop :=
  rt.val = sliceOf w 21 5 ∧ bfa.val = sliceOf w 13 3 ∧ m.toNat = sliceOf w 20 1 ∧
    fmsk.toNat = sliceOf w 16 4 ∧ fmap.toNat = sliceOf w 6 4 ∧ rc = sliceOf w 0 1

/-- R69: every operand of the instruction is its field of the word, as an unsigned number. -/
def OperandsAreFields (w : InsnWord) : Instr → Prop
  | .crrweird rt bfa m fmsk fmap        => Cw2Fields w rt bfa m fmsk fmap 0
  | .crrweirdRc rt bfa m fmsk fmap      => Cw2Fields w rt bfa m fmsk fmap 1
  | .mfcrrweird rt bfa fmsk fmap rsvM   => Cw2Fields w rt bfa rsvM fmsk fmap 0
  | .mfcrrweirdRc rt bfa fmsk fmap rsvM => Cw2Fields w rt bfa rsvM fmsk fmap 1
  | .mtcrrweird bf ra m fmsk fmap | .mtcrweird bf ra m fmsk fmap =>
    ra.val = sliceOf w 21 5 ∧ bf.val = sliceOf w 13 3 ∧ m.toNat = sliceOf w 20 1 ∧
      fmsk.toNat = sliceOf w 16 4 ∧ fmap.toNat = sliceOf w 6 4
  | .mcrfm bf bfa m fmsk fmap rsv =>
    bf.val = sliceOf w 23 3 ∧ rsv.toNat = sliceOf w 21 2 ∧ bfa.val = sliceOf w 13 3 ∧
      m.toNat = sliceOf w 20 1 ∧ fmsk.toNat = sliceOf w 16 4 ∧ fmap.toNat = sliceOf w 6 4
  | .crweirder bt bfa m fmsk fmap =>
    bt.val = sliceOf w 21 5 ∧ bfa.val = sliceOf w 13 3 ∧ m.toNat = sliceOf w 20 1 ∧
      fmsk.toNat = sliceOf w 16 4 ∧ fmap.toNat = sliceOf w 6 4

/-! ## Assembler lines (R79 to R84) -/

/-- The field an operand of a line fills. -/
inductive AsmField where
  | gpr
  | crField
  | crBit
  | mode
  | nibble
  deriving DecidableEq, Repr

/-- How many values the field has: 32 for RT, RA and BT, 8 for BF and BFA, 2 for M, 16 for `fmsk` and `fmap`
(R70). -/
def AsmField.size : AsmField → Nat
  | .gpr     => 32
  | .crField => 8
  | .crBit   => 32
  | .mode    => 2
  | .nibble  => 16

/-- The operand is spelled as the field's operands are and its value is the field's (R83). That a token `r<n>`
stands for a GPR alone and `cr<n>` for a CR field alone is the model's choice (log entry 16). -/
def AsmField.Admits (f : AsmField) : AsmOperand → Prop
  | .gpr n     => f = .gpr ∧ n < f.size
  | .crField n => f = .crField ∧ n < f.size
  | .num n     => n < f.size

/-- The operands of each mnemonic in the order of the line (R80 to R82, R84). -/
def AsmName.fields : AsmName → List AsmField
  | .insn .crrweird     => [.gpr, .crField, .mode, .nibble, .nibble]
  | .insn .crrweirdRc   => [.gpr, .crField, .mode, .nibble, .nibble]
  | .insn .mfcrrweird   => [.gpr, .crField, .nibble, .nibble]
  | .insn .mfcrrweirdRc => [.gpr, .crField, .nibble, .nibble]
  | .insn .mtcrrweird   => [.crField, .gpr, .mode, .nibble, .nibble]
  | .insn .mtcrweird    => [.crField, .gpr, .mode, .nibble, .nibble]
  | .insn .mcrfm        => [.crField, .crField, .mode, .nibble, .nibble]
  | .insn .crweirder    => [.crBit, .crField, .mode, .nibble, .nibble]
  | .mtcri              => [.crField, .nibble]
  | .mtcrset            => [.crField, .nibble]
  | .mtcrclr            => [.crField, .nibble]

/-! ## Predication of a vector form (R131, R140) -/

/-- A destination mask is named and its bit for element `i`, of value `2^i`, is 0. -/
def SvMasked (inp : SvInputs) (i : Nat) : Prop := ∃ d, inp.dm = some d ∧ d.toNat / 2 ^ i % 2 = 0

/-- What the source settles, for elements 0 to `count - 1`: no source mask, and where a destination mask is
named the element has a bit in it that is 1, or zeroing is on. -/
def SvSettled (inp : SvInputs) (count : Nat) : Prop :=
  inp.sm = none ∧ ∀ i, i < count → inp.dm = none ∨ (i < 64 ∧ (¬ SvMasked inp i ∨ inp.dz = true))

/-- The bits of the match word of element `i` (R12), the source field a vector or a scalar. -/
def SvMatch (inp : SvInputs) (crOf : Nat → Nibble) (bb i : Nat) (fmsk fmap n : Nibble) : Prop :=
  ∀ p, p < 4 → n.getMsbD p =
    (fmsk.getMsbD p && ((crOf (if inp.bbIsvec then bb + i else bb)).getMsbD p == fmap.getMsbD p))

/-- The value an element writes: 0 where it is masked, the value computed where it is not. -/
def SvWrites {α : Type} (inp : SvInputs) (i : Nat) (zero computed written : α) : Prop :=
  (SvMasked inp i → written = zero) ∧ (¬ SvMasked inp i → written = computed)

/-- The instruction at which a run of a launched program goes on: a word that decodes and whose reserved
bits are zero. -/
def Runnable (cfg : Config) (w : InsnWord) : Prop :=
  ∃ i, decodeWord cfg.opAssign w = some i ∧ i.wellFormed = true

end Sys2Proof.Machine
end

