-- ==== Sys2Proof/Certificates/Slice0/Obligations.lean ====
section
/-! DEFINITION. The statements for the provers. CR bits are named in the source's MSB0 numbering: CR bit
`32 + q` is `cr.getMsbD q`, position `p` of a 4-bit operand is `getMsbD p`, and bit `n` of a GPR is
`getMsbD n`. -/

open Sys2Proof Sys2Proof.Machine

/-! ## Encoding -/

/-- For any opcode numbers that meet constraint (a) of R72, decoding the word of any instruction gives the
instruction back, with every operand at every value (R69, R71, R73). -/
def Obligations.DecodeInvertsEncode : Prop :=
  ∀ A : OpAssign, A.Disjoint → ∀ i : Instr, decodeWord A (encode A i) = some i

/-- Whatever the opcode numbers, the word an instruction was decoded from is the word it encodes to: no bit
of a recognised word is dropped (R69, R71, R73). -/
def Obligations.EncodeInvertsDecode : Prop :=
  ∀ (A : OpAssign) (w : InsnWord) (i : Instr), decodeWord A w = some i → encode A i = w

/-- R73: a word is recognised as a row's instruction exactly when `w & mask = match`. -/
def Obligations.WordRecognisedExactlyByItsRow : Prop :=
  ∀ A : OpAssign, A.Disjoint → ∀ (w : InsnWord) (mn : Mnemonic),
    (∃ i, decodeWord A w = some i ∧ i.mnemonic = mn) ↔ w &&& 0xFC001C3F#32 = A.matchOf mn

/-- The decidable `Disjoint` is constraint (a) of R72: no 32-bit word matches two rows. -/
def Obligations.DisjointIsNoWordMatchesTwoRows : Prop :=
  ∀ A : OpAssign, A.Disjoint ↔
    ∀ (w : InsnWord) (m n : Mnemonic),
      w &&& 0xFC001C3F#32 = A.matchOf m → w &&& 0xFC001C3F#32 = A.matchOf n → m = n

/-- R69: each operand of a decoded instruction is one contiguous field of the word, as an unsigned number, and
the record forms are the words with Rc = 1. -/
def Obligations.DecodedOperandsAreTheFields : Prop :=
  ∀ (A : OpAssign) (w : InsnWord) (i : Instr), decodeWord A w = some i → OperandsAreFields w i

/-- The bytes of an instruction in either byte order decode to it, and the bytes after it are left over
(R43, R60, R71). -/
def Obligations.StoredBytesDecodeInEitherOrder : Prop :=
  ∀ cfg : Config, cfg.opAssign.Disjoint → ∀ (i : Instr) (rest : List Byte),
    decodeBytes cfg (encodeBytes cfg i ++ rest) = .ok (i, rest)

/-- R74: the test-only numbers and their `match` values, which meet constraint (a), and one word of each family
written out from its cells. A sanity check. -/
def Obligations.TestAssignmentMatchValues : Prop :=
  OpAssign.test = ⟨⟨22, 0, 0b10110⟩, ⟨22, 1, 0b10110⟩, ⟨22, 2, 0b101100⟩, ⟨22, 3, 0b101100⟩, ⟨22, 4, 0b101100⟩,
      ⟨22, 5, 0b101100⟩⟩ ∧
  Mnemonic.all.map OpAssign.test.matchOf =
      [0x5800002C, 0x5800002D, 0x5800042C, 0x5800042D, 0x5800082C, 0x58000C2C, 0x5800102C, 0x5800142C] ∧
    OpAssign.test.Disjoint ∧
    decodeWord .test 0b010110_00011_0_1010_001_000_1010_10110_0 = some (.crrweird 3 1 false 10 10) ∧
    decodeWord .test 0b010110_00110_1_1100_011_010_1111_101100 = some (.mtcrrweird 3 6 true 12 15) ∧
    decodeWord .test 0b010110_001_00_1_1100_000_100_0000_101100 = some (.mcrfm 1 0 true 12 0 0) ∧
    decodeWord .test 0b010110_00101_0_1010_001_101_1010_101100 = some (.crweirder 5 1 false 10 10)

/-! ## Fetch, launch and the outcomes of a step -/

/-- R43: the four bytes at `pc` make the instruction word, in the byte order of the run, which no step
changes. -/
def Obligations.FetchAssemblesFourBytes : Prop :=
  ∀ (s : State) (b0 b1 b2 b3 : Byte), s.inText = true → s.AlignedPc →
    Memory.read s.mem s.pc.toNat = some b0 → Memory.read s.mem (s.pc.toNat + 1) = some b1 →
    Memory.read s.mem (s.pc.toNat + 2) = some b2 → Memory.read s.mem (s.pc.toNat + 3) = some b3 →
    ∃ w : InsnWord, s.fetchWord = some w ∧
      (s.cfg.insnByteOrder = .be →
        w.toNat = b0.toNat * 2 ^ 24 + b1.toNat * 2 ^ 16 + b2.toNat * 2 ^ 8 + b3.toNat) ∧
      (s.cfg.insnByteOrder = .le →
        w.toNat = b3.toNat * 2 ^ 24 + b2.toNat * 2 ^ 16 + b1.toNat * 2 ^ 8 + b0.toNat) ∧
      ∀ t, step s = .next t → t.cfg.insnByteOrder = s.cfg.insnByteOrder

/-- A word placed at an aligned `pc` is the next word fetched, in either byte order, and nothing but the
text changes. `placeWord` is the model's own load (log entry 4). -/
def Obligations.PlacedWordIsFetchedNext : Prop :=
  ∀ (s : State) (w : InsnWord), s.AlignedPc →
    (s.placeWord w).fetchWord = some w ∧
      (s.placeWord w).gpr = s.gpr ∧ (s.placeWord w).cr = s.cr ∧ (s.placeWord w).xerSO = s.xerSO ∧
      (s.placeWord w).pc = s.pc ∧ (s.placeWord w).cfg = s.cfg ∧
      ∀ a, a < s.pc.toNat ∨ s.pc.toNat + 4 ≤ a →
        Memory.read (s.placeWord w).mem a = Memory.read s.mem a

/-- R42: in any state that holds the text of a launch, a fetch at word `n` of the text returns word `n` of
the program. -/
def Obligations.LaunchedTextReturnsItsWords : Prop :=
  ∀ (s : State) (words : List InsnWord) (n : Nat) (hn : n < words.length),
    s.mem = textImage s.cfg.insnByteOrder s.programBase.toNat words → s.programLength = words.length →
    s.programBase.toNat % 4 = 0 → s.TextFits → s.pc.toNat = s.programBase.toNat + 4 * n →
    s.fetchWord = some words[n]

/-- When the word at `pc` decodes to an instruction, the step is that instruction's execution (R155); its
reserved bits are checked there first (R76, R77). -/
def Obligations.StepRunsTheDecodedInstruction : Prop :=
  ∀ (s : State) (w : InsnWord) (i : Instr),
    s.fetchWord = some w → decodeWord s.cfg.opAssign w = some i → step s = exec i s

/-- R75, R150: a fetched word that matches no row of the opcode map faults, recording the word and the pc, and
the run stops there for good. -/
def Obligations.UnrecognisedWordIsIllegal : Prop :=
  ∀ (s : State) (w : InsnWord), s.fetchWord = some w →
    (∀ mn : Mnemonic, w &&& 0xFC001C3F#32 ≠ s.cfg.opAssign.matchOf mn) →
    step s = .fault (.illegalInstruction w s.pc) ∧
      ∀ n, core.run (n + 1) s = .fault (.illegalInstruction w s.pc)

/-- R151: outside the text and not at the end address the step faults; in a run of an admitted launch no
`FetchFault` happens. That the end address is taken modulo 2^64 is the model's (log entry 5). A misaligned pc or
an unmapped byte inside the text faults too (log entries 6 and 7). -/
def Obligations.FetchFaultOutsideTheTextNeverInALaunchedRun : Prop :=
  (∀ s : State,
    (s.pc.toNat < s.programBase.toNat ∨ s.programBase.toNat + 4 * s.programLength ≤ s.pc.toNat) →
    s.pc.toNat ≠ (s.programBase.toNat + 4 * s.programLength) % 2 ^ 64 →
    step s = .fault (.fetchFault s.pc)) ∧
  (∀ (cfg : Config) (base : Dword) (words : List InsnWord) (gpr : Vector Dword 32) (cr : BitVec 32)
    (so : Bool) (n : Nat) (t : State), base.toNat % 4 = 0 → base.toNat + 4 * words.length ≤ 2 ^ 64 →
    core.run n (State.launch cfg base words gpr cr so) = .next t →
    ∀ a, step t ≠ .fault (.fetchFault a))

/-- R151: where the text is aligned and wholly mapped and the pc is aligned, a `FetchFault` shows that pc, and it
is outside the text and not the end address. The premises rule out the two faults inside the text (log entries 6
and 7); the end address is taken modulo 2^64 (log entry 5). -/
def Obligations.FetchFaultInAMappedTextShowsAPcOutside : Prop :=
  ∀ (s : State) (a : Dword), s.AlignedPc → s.programBase.toNat % 4 = 0 →
    (∀ b, s.programBase.toNat ≤ b → b < s.programBase.toNat + 4 * s.programLength →
      (Memory.read s.mem b).isSome = true) →
    step s = .fault (.fetchFault a) →
      a = s.pc ∧
      (s.pc.toNat < s.programBase.toNat ∨ s.programBase.toNat + 4 * s.programLength ≤ s.pc.toNat) ∧
      s.pc.toNat ≠ (s.programBase.toNat + 4 * s.programLength) % 2 ^ 64

/-- The run is over exactly at the end address (R42). That the end is taken modulo 2^64, and that a step
there answers `endOfRun`, is the model's choice (log entry 5). -/
def Obligations.RunIsOverExactlyAtTheEndAddress : Prop :=
  ∀ s : State, step s = .refused .endOfRun ↔
    (s.pc.toNat < s.programBase.toNat ∨ s.programBase.toNat + 4 * s.programLength ≤ s.pc.toNat) ∧
      s.pc.toNat = (s.programBase.toNat + 4 * s.programLength) % 2 ^ 64

/-- R76: an `mcrfm` word with bit 9 or bit 10 set is refused, and the assembler never writes one. -/
def Obligations.McrfmReservedBitsAreRefused : Prop :=
  (∀ (s : State) (w : InsnWord), s.cfg.opAssign.Disjoint → s.fetchWord = some w →
    w &&& 0xFC001C3F#32 = s.cfg.opAssign.matchOf .mcrfm → sliceOf w 21 2 ≠ 0 →
    step s = .refused (.reservedFieldNonZero w)) ∧
  (∀ (l : AsmLine) (bf bfa : CrFieldNum) (m : Bool) (fmsk fmap : Nibble) (rsv : BitVec 2),
    assemble l = .instr (.mcrfm bf bfa m fmsk fmap rsv) → rsv = 0)

/-- R77: a `mfcrrweird` or `mfcrrweird.` word with M = 1 is refused, and the assembler never writes one; with
the switch on, M is ignored. -/
def Obligations.MfcrrweirdMBitIsRefusedUnlessIgnored : Prop :=
  (∀ (s : State) (w : InsnWord), s.cfg.opAssign.Disjoint → s.fetchWord = some w →
    (w &&& 0xFC001C3F#32 = s.cfg.opAssign.matchOf .mfcrrweird ∨
      w &&& 0xFC001C3F#32 = s.cfg.opAssign.matchOf .mfcrrweirdRc) →
    sliceOf w 20 1 = 1 → s.cfg.mfcrrweirdIgnoresM = false →
    step s = .refused (.reservedFieldNonZero w)) ∧
  (∀ (l : AsmLine) (rt : GprNum) (bfa : CrFieldNum) (fmsk fmap : Nibble) (rsvM : Bool),
    assemble l = .instr (.mfcrrweird rt bfa fmsk fmap rsvM) ∨
      assemble l = .instr (.mfcrrweirdRc rt bfa fmsk fmap rsvM) → rsvM = false) ∧
  (∀ (s : State) (rt : GprNum) (bfa : CrFieldNum) (fmsk fmap : Nibble), s.cfg.mfcrrweirdIgnoresM = true →
    exec (.mfcrrweird rt bfa fmsk fmap true) s = exec (.mfcrrweird rt bfa fmsk fmap false) s ∧
      exec (.mfcrrweirdRc rt bfa fmsk fmap true) s = exec (.mfcrrweirdRc rt bfa fmsk fmap false) s)

/-- R152 and R155: the complete list of the outcomes of a step that are not a next state, and when each
arises. The refusal `endOfRun` of a finished run is the model's own (log entry 5). -/
def Obligations.StepStopsOnlyAsListed : Prop :=
  ∀ s : State,
    (∀ f, step s = .fault f →
      (f = .fetchFault s.pc ∧ s.fetchWord = none) ∨
        ∃ w, s.fetchWord = some w ∧ f = .illegalInstruction w s.pc ∧ decodeWord s.cfg.opAssign w = none) ∧
    (∀ r, step s = .refused r →
      (r = .endOfRun ∧ s.isFinal = true) ∨
        ∃ w i, s.fetchWord = some w ∧ decodeWord s.cfg.opAssign w = some i ∧ i.wellFormed = false ∧
          r = .reservedFieldNonZero w)

/-! ## The eight instructions: result, frame and completion -/

/-- R100: `crrweird` writes the verdict, 0 or 1, to all of `x[RT]`, and changes nothing else but the pc. -/
def Obligations.CrrweirdWritesTheVerdict : Prop :=
  ∀ (s : State) (rt : GprNum) (bfa : CrFieldNum) (m : Bool) (fmsk fmap : Nibble),
    (encode s.cfg.opAssign (.crrweird rt bfa m fmsk fmap)).toNat =
        cw2Sum s.cfg.opAssign.crrweird rt m.toNat fmsk.toNat bfa fmap.toNat 0 ∧
    ∃ t, exec (.crrweird rt bfa m fmsk fmap) s = .next t ∧
      t.gpr[rt].toNat = (if Verdict s.cr bfa m fmsk fmap then 1 else 0) ∧
      GprsKeptBut rt s t ∧ t.cr = s.cr ∧ Advanced s t

/-- R101: `crrweird.` writes the verdict on the old field to `x[RT]` and then `analyse(x[RT], XER.SO)` to CR0:
EQ for 0, GT for 1, and SO. That `analyse` gives these values is R28, the spec's decision D8 (log entry 8). -/
def Obligations.CrrweirdRecordFormAlsoWritesCr0 : Prop :=
  ∀ (s : State) (rt : GprNum) (bfa : CrFieldNum) (m : Bool) (fmsk fmap : Nibble),
    (encode s.cfg.opAssign (.crrweirdRc rt bfa m fmsk fmap)).toNat =
        cw2Sum s.cfg.opAssign.crrweird rt m.toNat fmsk.toNat bfa fmap.toNat 1 ∧
    ∃ t, exec (.crrweirdRc rt bfa m fmsk fmap) s = .next t ∧
      t.gpr[rt].toNat = (if Verdict s.cr bfa m fmsk fmap then 1 else 0) ∧
      GprsKeptBut rt s t ∧ t.readCrField 0 = analyse t.gpr[rt] s.xerSO ∧
      Cr0Recorded t.gpr[rt].toNat s t ∧ Advanced s t

/-- R102: `mfcrrweird` writes the four-bit match word to `x[RT]`, the upper 60 bits zero; a word with M = 1
is refused (R77) unless the switch is on. -/
def Obligations.MfcrrweirdWritesTheMatchWord : Prop :=
  ∀ (s : State) (rt : GprNum) (bfa : CrFieldNum) (fmsk fmap : Nibble) (rsvM : Bool),
    (encode s.cfg.opAssign (.mfcrrweird rt bfa fmsk fmap rsvM)).toNat =
        cw2Sum s.cfg.opAssign.mfcrrweird rt rsvM.toNat fmsk.toNat bfa fmap.toNat 0 ∧
    (rsvM = true → s.cfg.mfcrrweirdIgnoresM = false →
      exec (.mfcrrweird rt bfa fmsk fmap rsvM) s =
        .refused (.reservedFieldNonZero (encode s.cfg.opAssign (.mfcrrweird rt bfa fmsk fmap rsvM)))) ∧
    (rsvM = false ∨ s.cfg.mfcrrweirdIgnoresM = true →
      ∃ t, exec (.mfcrrweird rt bfa fmsk fmap rsvM) s = .next t ∧
        (∀ n, n < 60 → t.gpr[rt].getMsbD n = false) ∧
        (∀ p, p < 4 → t.gpr[rt].getMsbD (60 + p) =
          (fmsk.getMsbD p && (s.cr.getMsbD (4 * bfa.val + p) == fmap.getMsbD p))) ∧
        GprsKeptBut rt s t ∧ t.cr = s.cr ∧ Advanced s t)

/-- R103: `mfcrrweird.` writes the match word of the old field to `x[RT]` and then `analyse(x[RT], XER.SO)` to
CR0, as R101. -/
def Obligations.MfcrrweirdRecordFormAlsoWritesCr0 : Prop :=
  ∀ (s : State) (rt : GprNum) (bfa : CrFieldNum) (fmsk fmap : Nibble) (rsvM : Bool),
    (encode s.cfg.opAssign (.mfcrrweirdRc rt bfa fmsk fmap rsvM)).toNat =
        cw2Sum s.cfg.opAssign.mfcrrweird rt rsvM.toNat fmsk.toNat bfa fmap.toNat 1 ∧
    (rsvM = true → s.cfg.mfcrrweirdIgnoresM = false →
      exec (.mfcrrweirdRc rt bfa fmsk fmap rsvM) s =
        .refused (.reservedFieldNonZero (encode s.cfg.opAssign (.mfcrrweirdRc rt bfa fmsk fmap rsvM)))) ∧
    (rsvM = false ∨ s.cfg.mfcrrweirdIgnoresM = true →
      ∃ t, exec (.mfcrrweirdRc rt bfa fmsk fmap rsvM) s = .next t ∧
        (∀ n, n < 60 → t.gpr[rt].getMsbD n = false) ∧
        (∀ p, p < 4 → t.gpr[rt].getMsbD (60 + p) =
          (fmsk.getMsbD p && (s.cr.getMsbD (4 * bfa.val + p) == fmap.getMsbD p))) ∧
        GprsKeptBut rt s t ∧ t.readCrField 0 = analyse t.gpr[rt] s.xerSO ∧
        Cr0Recorded t.gpr[rt].toNat s t ∧ Advanced s t)

/-- R110: `mtcrrweird` writes `CRF(BF)` from the low four bits of `(RA|0)`: a selected bit says whether the
register's bit agrees with `fmap`; an unselected one is kept when M = 1 and 0 when M = 0. -/
def Obligations.MtcrrweirdMovesFourBitsToTheField : Prop :=
  ∀ (s : State) (bf : CrFieldNum) (ra : GprNum) (m : Bool) (fmsk fmap : Nibble),
    (encode s.cfg.opAssign (.mtcrrweird bf ra m fmsk fmap)).toNat =
        cwSum s.cfg.opAssign.mtcrrweird ra m.toNat fmsk.toNat bf fmap.toNat ∧
    ∃ t, exec (.mtcrrweird bf ra m fmsk fmap) s = .next t ∧
      (∀ p, p < 4 → t.cr.getMsbD (4 * bf.val + p) =
        if fmsk.getMsbD p then (decide (ra ≠ 0) && s.gpr[ra].getMsbD (60 + p)) == fmap.getMsbD p
        else m && s.cr.getMsbD (4 * bf.val + p)) ∧
      CrKeptOutside bf s t ∧ t.gpr = s.gpr ∧ Advanced s t

/-- R111: `mtcrweird` does the same with the one least significant bit of `(RA|0)` at all four positions. -/
def Obligations.MtcrweirdMovesOneBitToTheField : Prop :=
  ∀ (s : State) (bf : CrFieldNum) (ra : GprNum) (m : Bool) (fmsk fmap : Nibble),
    (encode s.cfg.opAssign (.mtcrweird bf ra m fmsk fmap)).toNat =
        cwSum s.cfg.opAssign.mtcrweird ra m.toNat fmsk.toNat bf fmap.toNat ∧
    ∃ t, exec (.mtcrweird bf ra m fmsk fmap) s = .next t ∧
      (∀ p, p < 4 → t.cr.getMsbD (4 * bf.val + p) =
        if fmsk.getMsbD p then (decide (ra ≠ 0) && s.gpr[ra].getMsbD 63) == fmap.getMsbD p
        else m && s.cr.getMsbD (4 * bf.val + p)) ∧
      CrKeptOutside bf s t ∧ t.gpr = s.gpr ∧ Advanced s t

/-- R120: `mcrfm` writes `CRF(BF)` with `fmap` exclusive-ORed onto the selected bits of `CRF(BFA)` and, at the
unselected positions, the old bits when M = 1 or zeros when M = 0; a word with a reserved bit is refused. -/
def Obligations.McrfmMovesTheMaskedField : Prop :=
  ∀ (s : State) (bf bfa : CrFieldNum) (m : Bool) (fmsk fmap : Nibble) (rsv : BitVec 2),
    (encode s.cfg.opAssign (.mcrfm bf bfa m fmsk fmap rsv)).toNat =
        cwSum s.cfg.opAssign.mcrfm (bf.val * 4 + rsv.toNat) m.toNat fmsk.toNat bfa fmap.toNat ∧
    (rsv ≠ 0 → exec (.mcrfm bf bfa m fmsk fmap rsv) s =
      .refused (.reservedFieldNonZero (encode s.cfg.opAssign (.mcrfm bf bfa m fmsk fmap rsv)))) ∧
    (rsv = 0 → ∃ t, exec (.mcrfm bf bfa m fmsk fmap rsv) s = .next t ∧
      (∀ p, p < 4 → t.cr.getMsbD (4 * bf.val + p) =
        ((if fmsk.getMsbD p then s.cr.getMsbD (4 * bfa.val + p) else m && s.cr.getMsbD (4 * bf.val + p)) ^^
          fmap.getMsbD p)) ∧
      CrKeptOutside bf s t ∧ t.gpr = s.gpr ∧ Advanced s t)

/-- R121: `crweirder` writes the verdict on the old field to CR bit `32 + BT` and keeps the other 31. -/
def Obligations.CrweirderWritesOneCrBit : Prop :=
  ∀ (s : State) (bt : CrBitNum) (bfa : CrFieldNum) (m : Bool) (fmsk fmap : Nibble),
    (encode s.cfg.opAssign (.crweirder bt bfa m fmsk fmap)).toNat =
        cwSum s.cfg.opAssign.crweirder bt m.toNat fmsk.toNat bfa fmap.toNat ∧
    ∃ t, exec (.crweirder bt bfa m fmsk fmap) s = .next t ∧
      t.cr.getMsbD bt.val = decide (Verdict s.cr bfa m fmsk fmap) ∧
      (∀ q, q < 32 → q ≠ bt.val → t.cr.getMsbD q = s.cr.getMsbD q) ∧ t.gpr = s.gpr ∧ Advanced s t

/-! ## What the rules say across instructions -/

/-- R28: `analyse` is LT, GT, EQ of the signed value against 0, exactly one of them, then SO; on 0 to 15 its
value is 2 or 4, plus SO. The source does not define `analyse`; the spec fixes it (log entry 8). -/
def Obligations.AnalyseIsTheRecordRule : Prop :=
  ∀ (v : Dword) (so : Bool),
    (analyse v so).getMsbD 0 = decide (v.toInt < 0) ∧ (analyse v so).getMsbD 1 = decide (0 < v.toInt) ∧
    (analyse v so).getMsbD 2 = decide (v.toInt = 0) ∧ (analyse v so).getMsbD 3 = so ∧
    ((analyse v so).getMsbD 0).toNat + ((analyse v so).getMsbD 1).toNat +
      ((analyse v so).getMsbD 2).toNat = 1 ∧
    (v.toNat < 16 → (analyse v so).toNat = (if v.toNat = 0 then 2 else 4) + so.toNat)

/-- R25, R17: field `k` as a number is `(CR >> (28 - 4k)) & 15`, CR bit `32 + j` is `(CR >> (31 - j)) & 1` and
lies in field `j div 4` at position `j mod 4`; writing a field or a bit replaces that and nothing else. -/
def Obligations.CrFieldsAndBitsAreTheirNumbers : Prop :=
  ∀ (cr : BitVec 32) (k l : CrFieldNum) (v : Nibble) (i j : CrBitNum) (b : Bool),
    (crField cr k).toNat = cr.toNat / 2 ^ (28 - 4 * k.val) % 16 ∧
    (crBit cr j).toNat = cr.toNat / 2 ^ (31 - j.val) % 2 ∧
    (k.val = j.val / 4 → crBit cr j = (crField cr k).getMsbD (j.val % 4)) ∧
    crField (crFieldSet cr k v) l = (if l = k then v else crField cr l) ∧
    crBit (crBitSet cr j b) i = if i = j then b else crBit cr i

/-- Every well-formed instruction completes in every state, moves the pc on by 4 modulo 2^64, and keeps
`XER.SO`, storage and the launch's parameters (R24, R29, R41, R152). -/
def Obligations.WellFormedInstructionsCompleteAndAdvance : Prop :=
  ∀ (i : Instr) (s : State), i.wellFormed = true → ∃ t, exec i s = .next t ∧ Advanced s t

/-- A step writes at most one GPR, with a value from 0 to 15, and at most one CR field (R21, R27, R170). -/
def Obligations.StepWritesAtMostOneGprAndOneField : Prop :=
  ∀ s t : State, step s = .next t →
    (∃ rt, GprsKeptBut rt s t ∧ (t.gpr[rt] = s.gpr[rt] ∨ t.gpr[rt].toNat < 16)) ∧
      ∃ k, CrKeptOutside k s t

/-- R84: `mtcri` sets the field to the constant, `mtcrset` sets the masked bits, `mtcrclr` clears them, in
every state; each writes the one field and nothing else. -/
def Obligations.PseudoOpsSetTheField : Prop :=
  ∀ (s : State) (bf : CrFieldNum) (v : Nibble),
    (∃ t, exec (mtcri bf v) s = .next t ∧
      (∀ p, p < 4 → t.cr.getMsbD (4 * bf.val + p) = v.getMsbD p) ∧
      CrKeptOutside bf s t ∧ t.gpr = s.gpr ∧ Advanced s t) ∧
    (∃ t, exec (mtcrset bf v) s = .next t ∧
      (∀ p, p < 4 → t.cr.getMsbD (4 * bf.val + p) = (s.cr.getMsbD (4 * bf.val + p) || v.getMsbD p)) ∧
      CrKeptOutside bf s t ∧ t.gpr = s.gpr ∧ Advanced s t) ∧
    (∃ t, exec (mtcrclr bf v) s = .next t ∧
      (∀ p, p < 4 → t.cr.getMsbD (4 * bf.val + p) = (s.cr.getMsbD (4 * bf.val + p) && !v.getMsbD p)) ∧
      CrKeptOutside bf s t ∧ t.gpr = s.gpr ∧ Advanced s t)

/-- R122: at an unselected position `mcrfm` keeps (M = 1) or clears (M = 0) the bit where `fmap` is 0, and
inverts (M = 1) or sets (M = 0) it where `fmap` is 1; a bit in both masks is copied inverted. So the two
sentences of the prose hold of every state exactly when `fmap & ~fmsk = 0`. -/
def Obligations.McrfmProseHoldsExactlyInsideTheMask : Prop :=
  ∀ (bf bfa : CrFieldNum) (m : Bool) (fmsk fmap : Nibble),
    (∀ s : State, ∃ t, exec (.mcrfm bf bfa m fmsk fmap 0) s = .next t ∧
      ∀ p, p < 4 →
        (fmsk.getMsbD p = true → fmap.getMsbD p = true →
          t.cr.getMsbD (4 * bf.val + p) = !s.cr.getMsbD (4 * bfa.val + p)) ∧
        (fmsk.getMsbD p = false → fmap.getMsbD p = true →
          t.cr.getMsbD (4 * bf.val + p) = if m then !s.cr.getMsbD (4 * bf.val + p) else true)) ∧
    ((∀ s t : State, exec (.mcrfm bf bfa m fmsk fmap 0) s = .next t → ∀ p, p < 4 →
        fmsk.getMsbD p = false →
          t.cr.getMsbD (4 * bf.val + p) = if m then s.cr.getMsbD (4 * bf.val + p) else false) ↔
      fmap &&& ~~~fmsk = 0)

/-- R21: `mtcrrweird` reads the low four bits of `(RA|0)` and `mtcrweird` the low one, neither reads a
register when RA = 0, and `mcrfm` and `crweirder` read no GPR: whatever else the GPRs hold, the CR after is
the same. -/
def Obligations.CrWritersReadNoOtherGprBits : Prop :=
  ∀ (s : State) (g : Vector Dword 32) (bf bfa : CrFieldNum) (bt : CrBitNum) (ra : GprNum) (m : Bool)
    (fmsk fmap : Nibble),
    (ra = 0 ∨ s.gpr[ra].toNat % 16 = g[ra].toNat % 16 →
      ∃ t u, exec (.mtcrrweird bf ra m fmsk fmap) s = .next t ∧
        exec (.mtcrrweird bf ra m fmsk fmap) { s with gpr := g } = .next u ∧ t.cr = u.cr) ∧
    (ra = 0 ∨ s.gpr[ra].toNat % 2 = g[ra].toNat % 2 →
      ∃ t u, exec (.mtcrweird bf ra m fmsk fmap) s = .next t ∧
        exec (.mtcrweird bf ra m fmsk fmap) { s with gpr := g } = .next u ∧ t.cr = u.cr) ∧
    (∃ t u, exec (.mcrfm bf bfa m fmsk fmap 0) s = .next t ∧
      exec (.mcrfm bf bfa m fmsk fmap 0) { s with gpr := g } = .next u ∧ t.cr = u.cr) ∧
    (∃ t u, exec (.crweirder bt bfa m fmsk fmap) s = .next t ∧
      exec (.crweirder bt bfa m fmsk fmap) { s with gpr := g } = .next u ∧ t.cr = u.cr)

/-- R27, R176: with M = 0 the old destination field does not enter the result of `mtcrrweird`, `mtcrweird` or
`mcrfm` (from another field): two CRs that differ in `CRF(BF)` alone give the same CR. -/
def Obligations.OverwriteDoesNotReadTheField : Prop :=
  ∀ (s : State) (v : Nibble) (bf bfa : CrFieldNum) (ra : GprNum) (fmsk fmap : Nibble),
    (∃ t u, exec (.mtcrrweird bf ra false fmsk fmap) s = .next t ∧
      exec (.mtcrrweird bf ra false fmsk fmap) (s.writeCrField bf v) = .next u ∧ t.cr = u.cr) ∧
    (∃ t u, exec (.mtcrweird bf ra false fmsk fmap) s = .next t ∧
      exec (.mtcrweird bf ra false fmsk fmap) (s.writeCrField bf v) = .next u ∧ t.cr = u.cr) ∧
    (bf ≠ bfa → ∃ t u, exec (.mcrfm bf bfa false fmsk fmap 0) s = .next t ∧
      exec (.mcrfm bf bfa false fmsk fmap 0) (s.writeCrField bf v) = .next u ∧ t.cr = u.cr)

/-- R172: from any register contents, `mtcri` makes a known CR field and `mfcrrweird` then reads it back into
a GPR. -/
def Obligations.KnownValueFromAnyContents : Prop :=
  ∀ (s : State) (bf : CrFieldNum) (rt : GprNum) (v : Nibble), ∃ t u,
    exec (mtcri bf v) s = .next t ∧ exec (.mfcrrweird rt bf 0b1111 0b1111 false) t = .next u ∧
      u.gpr[rt].toNat = v.toNat

/-! ## Runs -/

/-- Every step keeps the invariant of a run. -/
def Obligations.StepKeepsTheInvariant : Prop :=
  ∀ s t : State, s.Inv → step s = .next t → t.Inv

/-- R170, R171: a launch with any register contents meets the launch premises and the invariant. -/
def Obligations.LaunchMeetsThePremises : Prop :=
  ∀ (cfg : Config) (base : Dword) (words : List InsnWord) (gpr : Vector Dword 32) (cr : BitVec 32)
    (so : Bool), cfg.opAssign.Disjoint → base.toNat % 4 = 0 → base.toNat + 4 * words.length ≤ 2 ^ 64 →
    let s := State.launch cfg base words gpr cr so
    s.AlignedPc ∧ s.TextFits ∧ s.PcAtBase ∧ s.cfg.opAssign.Disjoint ∧ s.Inv ∧ s.gpr = gpr ∧ s.cr = cr ∧ s.xerSO = so

/-- The state after reset is the launch of no program with zero registers at address 0: the model's choice
of values (log entries 1 to 4 and 13). It meets the invariant. -/
def Obligations.ResetIsAnAdmittedLaunch : Prop :=
  State.reset = State.launch Config.atReset 0 [] (Vector.replicate 32 0) 0 false ∧ State.reset.Inv

/-- Whatever runs, a run of `n` steps that goes on has moved the pc by `4n` and kept `XER.SO`, every byte of
the text and the parameters (R24, R29, R52). -/
def Obligations.RunIsStraightLineAndKeepsTheText : Prop :=
  ∀ (n : Nat) (s t : State), core.run n s = .next t →
    t.pc = s.pc + BitVec.ofNat 64 (4 * n) ∧ t.xerSO = s.xerSO ∧
      (∀ a, Memory.read t.mem a = Memory.read s.mem a) ∧ t.programBase = s.programBase ∧
      t.programLength = s.programLength ∧ t.cfg = s.cfg

/-- R42: a launched program of well-formed instructions reaches its end, a final state, after exactly
`ProgramLength` steps, from any register contents; a step there answers `endOfRun`, which is the model's choice
(log entry 5). A text that fills the address space is left out: there the end address lies in the text (log
entry 5). -/
def Obligations.LaunchedProgramReachesItsEnd : Prop :=
  ∀ (cfg : Config) (base : Dword) (words : List InsnWord) (gpr : Vector Dword 32) (cr : BitVec 32)
    (so : Bool), base.toNat % 4 = 0 → base.toNat + 4 * words.length ≤ 2 ^ 64 → words.length < 2 ^ 62 →
    (∀ w ∈ words, Runnable cfg w) →
    ∃ t, core.run words.length (State.launch cfg base words gpr cr so) = .next t ∧ t.isFinal = true ∧
      step t = .refused .endOfRun

/-- R150, R155, R156: a launched program stops at its first word that no row recognises, with that word and
its address, whatever the registers hold. -/
def Obligations.LaunchedProgramStopsAtTheFirstIllegalWord : Prop :=
  ∀ (cfg : Config) (base : Dword) (words : List InsnWord) (gpr : Vector Dword 32) (cr : BitVec 32)
    (so : Bool) (n : Nat) (hn : n < words.length),
    base.toNat % 4 = 0 → base.toNat + 4 * words.length ≤ 2 ^ 64 →
    (∀ k (hk : k < n), Runnable cfg (words[k]'(Nat.lt_trans hk hn))) →
    (∀ mn : Mnemonic, words[n] &&& 0xFC001C3F#32 ≠ cfg.opAssign.matchOf mn) →
    core.run words.length (State.launch cfg base words gpr cr so) =
      .fault (.illegalInstruction words[n] (base + BitVec.ofNat 64 (4 * n)))

/-! ## The assembler and the transcribed SVP64 loops -/

/-- R79 to R84, R130: an `sv.` mnemonic is refused, and any other line gives an instruction exactly when it has
the mnemonic's operands, each spelled for its field and with one of the field's values: below 8 for BF and BFA, 2
for M, 16 for `fmsk` and `fmap`, 32 for RT, RA and BT. Every other line is an error. Which token stands for which
field is the model's choice (log entry 16). -/
def Obligations.AssemblerRejectsBadLines : Prop :=
  (∀ l : AsmLine, l.svPrefix = true → assemble l = .refused .svp64NotModelled) ∧
  (∀ (name : AsmName) (ops : List AsmOperand),
    (List.Forall₂ AsmField.Admits name.fields ops → ∃ i, assemble ⟨false, name, ops⟩ = .instr i) ∧
    (¬ List.Forall₂ AsmField.Admits name.fields ops → assemble ⟨false, name, ops⟩ = .badOperands))

/-- The assembler writes every well-formed instruction and no other (R76, R77, R80 to R82, and the reason of
decision D16: it must be able to set every bit). -/
def Obligations.AssemblerWritesExactlyTheWellFormed : Prop :=
  ∀ i : Instr, (∃ l : AsmLine, assemble l = .instr i) ↔ i.wellFormed = true

/-- R134, R135, U1: with a scalar RT, element `i` of `sv.crrweird` writes its verdict to the bit of value `2^i` of
the one register RT, and that is all the loop writes: every element with map-reduce, element 0 alone without. Over
64 elements with map-reduce it is refused. The model runs no prefixed form (R130). That predication not settled by
the source is refused, and that a masked element writes zero in this loop, is the model's choice (log entry 12). -/
def Obligations.SvCrrweirdScalarWritesOneBitPerElement : Prop :=
  ∀ (inp : SvInputs) (rt bb : Nat) (m : Bool) (fmsk fmap : Nibble) (crOf : Nat → Nibble),
    inp.rtIsvec = false →
    let count := if inp.mapreduce then inp.vl else min 1 inp.vl
    (¬ SvSettled inp count ∨ 64 < count → svCrrweird inp rt bb m fmsk fmap crOf = .error .svp64NotModelled) ∧
    (SvSettled inp count → count ≤ 64 → ∃ ws, svCrrweird inp rt bb m fmsk fmap crOf = .ok ws ∧
      ws.length = count ∧
      ∀ i (hi : i < ws.length), ws[i].reg = rt ∧ ws[i].first = 63 - i ∧ ws[i].last = 63 - i ∧
        ∀ n : Nibble, SvMatch inp crOf bb i fmsk fmap n →
          SvWrites inp i 0 (if (if m then n ≠ 0 else n = fmsk) then 1 else 0) ws[i].value)

/-- R134, R136: with a vector RT of the default element width, element `i` of `sv.crrweird` writes zero to MSB0
bits 0 to `63 - k` of register `RT + i div k` and then its verdict to the bit of value `2^(i mod k)` of it, `k`
being the packing count, and nothing else is written. A destination override is refused (U3). The model runs no
prefixed form (R130). That refusal, the refusal of predication not settled by the source, and that a masked element
writes zero for its verdict, beside the zeroing of bits 0 to `63 - k`, are the model's choice (log entry 12). -/
def Obligations.SvCrrweirdVectorPacksVerdicts : Prop :=
  ∀ (inp : SvInputs) (rt bb : Nat) (m : Bool) (fmsk fmap : Nibble) (crOf : Nat → Nibble),
    inp.rtIsvec = true →
    (¬ SvSettled inp inp.vl ∨ inp.rtElwidth ≠ 0 →
      svCrrweird inp rt bb m fmsk fmap crOf = .error .svp64NotModelled) ∧
    (SvSettled inp inp.vl → inp.rtElwidth = 0 → ∃ ws, svCrrweird inp rt bb m fmsk fmap crOf = .ok ws ∧
      ws.length = 2 * inp.vl ∧
      ∀ i, i < inp.vl →
        let k := [1, 2, 4, 8][inp.bbElwidth.toNat]!
        ws[2 * i]? = some ⟨rt + i / k, 0, 63 - k, 0⟩ ∧
        ∃ v, ws[2 * i + 1]? = some ⟨rt + i / k, 63 - i % k, 63 - i % k, v⟩ ∧
          ∀ n : Nibble, SvMatch inp crOf bb i fmsk fmap n →
            SvWrites inp i 0 (if (if m then n ≠ 0 else n = fmsk) then 1 else 0) v)

/-- R138: with a vector RT of the default element width, element `i` of `sv.mfcrrweird` writes its 4-bit match
word to nibble `i mod k` of register `RT + i div k`, `k` being the packing count. A destination override, where the
source contradicts itself (R139, C7), is refused: the model's choice (log entry 12), as is the treatment of
predication. The model runs no prefixed form (R130). -/
def Obligations.SvMfcrrweirdPacksNibbles : Prop :=
  ∀ (inp : SvInputs) (rt bb : Nat) (fmsk fmap : Nibble) (crOf : Nat → Nibble), inp.rtIsvec = true →
    (¬ SvSettled inp inp.vl ∨ inp.rtElwidth ≠ 0 →
      svMfcrrweird inp rt bb fmsk fmap crOf = .error .svp64NotModelled) ∧
    (SvSettled inp inp.vl → inp.rtElwidth = 0 → ∃ ws, svMfcrrweird inp rt bb fmsk fmap crOf = .ok ws ∧
      ws.length = inp.vl ∧
      ∀ i (hi : i < ws.length),
        let k := [1, 2, 4, 8][inp.bbElwidth.toNat]!
        ws[i].reg = rt + i / k ∧ ws[i].first = 60 - 4 * (i % k) ∧ ws[i].last = 63 - 4 * (i % k) ∧
          ∀ n : Nibble, SvMatch inp crOf bb i fmsk fmap n → SvWrites inp i 0 n.toNat ws[i].value)

/-- R138, U2: with a scalar RT, element `i` of `sv.mfcrrweird` writes its 4-bit match word to nibble `i` of the one
register RT, and that is all the loop writes: every element with map-reduce, element 0 alone without. Over 16
elements with map-reduce it is refused. The treatment of predication is the model's choice (log entry 12). -/
def Obligations.SvMfcrrweirdScalarWritesOneNibblePerElement : Prop :=
  ∀ (inp : SvInputs) (rt bb : Nat) (fmsk fmap : Nibble) (crOf : Nat → Nibble), inp.rtIsvec = false →
    let count := if inp.mapreduce then inp.vl else min 1 inp.vl
    (¬ SvSettled inp count ∨ 16 < count → svMfcrrweird inp rt bb fmsk fmap crOf = .error .svp64NotModelled) ∧
    (SvSettled inp count → count ≤ 16 → ∃ ws, svMfcrrweird inp rt bb fmsk fmap crOf = .ok ws ∧
      ws.length = count ∧
      ∀ i (hi : i < ws.length), ws[i].reg = rt ∧ ws[i].first = 60 - 4 * i ∧ ws[i].last = 63 - 4 * i ∧
        ∀ n : Nibble, SvMatch inp crOf bb i fmsk fmap n → SvWrites inp i 0 n.toNat ws[i].value)

/-- R140: with RA = 0 and a zeroing destination mask, element `i` of `sv.mtcrweird` writes field `BF + i` with zero
where the mask bit is 0 and with the scalar rule's result on a zero source (R111) where it is 1; so with M = 0 the
mask decides between `fmsk & ~fmap` and zero. The example's operand list has no M (C5): that M is an operand, and
that M = 1 merges with the old field `BF + i`, is the model's choice (log entry 12). So are the refusals of an RA
other than 0, where the source gives no pseudocode (N12), and of predication that it does not settle. The model runs
no prefixed form (R130). -/
def Obligations.SvMtcrweirdCopiesThePredicate : Prop :=
  ∀ (inp : SvInputs) (bf : Nat) (ra : GprNum) (m : Bool) (fmsk fmap : Nibble) (crOf : Nat → Nibble),
    (ra ≠ 0 ∨ ¬ SvSettled inp inp.vl → svMtcrweird inp bf ra m fmsk fmap crOf = .error .svp64NotModelled) ∧
    (ra = 0 → SvSettled inp inp.vl → ∃ ws, svMtcrweird inp bf ra m fmsk fmap crOf = .ok ws ∧
      ws.length = inp.vl ∧
      ∀ i (hi : i < ws.length), ws[i].field = bf + i ∧
        SvWrites inp i 0 ((fmsk &&& ~~~fmap) ||| if m then crOf (bf + i) &&& ~~~fmsk else 0) ws[i].value)

/-- R6, D1: no rule reads `BaseIsaVersion`: under another version a step does the same. -/
def Obligations.NoStepReadsBaseIsaVersion : Prop :=
  ∀ (s : State) (v : String),
    let other (t : State) : State := { t with cfg := { t.cfg with baseIsaVersion := v } }
    (∀ t, step s = .next t → step (other s) = .next (other t)) ∧
    (∀ f, step s = .fault f → step (other s) = .fault f) ∧
    (∀ r, step s = .refused r → step (other s) = .refused r)
end

