-- ==== Sys2Proof/Laws/Assemble.lean ====
section
/-! SUPPORT. Reading one operand of an assembler line gives a value exactly when its field admits it. -/

namespace Sys2Proof.Machine

theorem inField_isSome (bound n : Nat) : (inField bound n).isSome = true ↔ n < bound := by
  unfold inField; split <;> simp_all

theorem asGpr_isSome (o : AsmOperand) : o.asGpr.isSome = true ↔ AsmField.gpr.Admits o := by
  cases o <;> simp [AsmOperand.asGpr, AsmField.Admits, AsmField.size, inField_isSome]

theorem asCrField_isSome (o : AsmOperand) : o.asCrField.isSome = true ↔ AsmField.crField.Admits o := by
  cases o <;> simp [AsmOperand.asCrField, AsmField.Admits, AsmField.size, inField_isSome]

theorem asCrBit_isSome (o : AsmOperand) : o.asCrBit.isSome = true ↔ AsmField.crBit.Admits o := by
  cases o <;> simp [AsmOperand.asCrBit, AsmField.Admits, AsmField.size, inField_isSome]

theorem asM_isSome (o : AsmOperand) : o.asM.isSome = true ↔ AsmField.mode.Admits o := by
  cases o <;> simp [AsmOperand.asM, AsmField.Admits, AsmField.size, inField_isSome]

theorem asNibble_isSome (o : AsmOperand) : o.asNibble.isSome = true ↔ AsmField.nibble.Admits o := by
  cases o <;> simp [AsmOperand.asNibble, AsmField.Admits, AsmField.size, inField_isSome]

end Sys2Proof.Machine
end

