-- ==== Sys2Proof/Laws/Decode.lean ====
section
/-! SUPPORT. The fields and the masked bits of an encoded word, and the rows of the opcode map. -/

namespace Sys2Proof

/-! ## The cells of a word -/

/-- The 6 bits 26 to 31 of a CW2-Form word: the second XO cell, then Rc. -/
def cw2Low (o : Cw2Opcode) (rc : Bool) : BitVec 6 := o.xob.setWidth 6 <<< 1 ||| (BitVec.ofBool rc).setWidth 6

/-- The eight cells that every row has, whatever the row calls them; `e` is bits 26 to 31. -/
def cells (po : BitVec 6) (a : BitVec 5) (m : BitVec 1) (fmsk : Nibble) (b : BitVec 3) (xoa : BitVec 3)
    (fmap : Nibble) (e : BitVec 6) : InsnWord :=
  cell po 26 ||| cell a 21 ||| cell m 20 ||| cell fmsk 16 ||| cell b 13 ||| cell xoa 10 ||| cell fmap 6 |||
    cell e 0

section cells
variable (po : BitVec 6) (a : BitVec 5) (m : BitVec 1) (fmsk : Nibble) (b : BitVec 3) (xoa : BitVec 3)
  (fmap : Nibble) (e : BitVec 6)

theorem cells_field5 : (cells po a m fmsk b xoa fmap e).extractLsb' 21 5 = a := by
  apply BitVec.eq_of_getLsbD_eq; intro i hi
  interval_cases i <;> simp [cells, cell]

theorem cells_field3 : (cells po a m fmsk b xoa fmap e).extractLsb' 13 3 = b := by
  apply BitVec.eq_of_getLsbD_eq; intro i hi
  interval_cases i <;> simp [cells, cell]

theorem cells_fieldBF : (cells po a m fmsk b xoa fmap e).extractLsb' 23 3 = a.extractLsb' 2 3 := by
  apply BitVec.eq_of_getLsbD_eq; intro i hi
  interval_cases i <;> simp [cells, cell]

theorem cells_fieldRsv : (cells po a m fmsk b xoa fmap e).extractLsb' 21 2 = a.extractLsb' 0 2 := by
  apply BitVec.eq_of_getLsbD_eq; intro i hi
  interval_cases i <;> simp [cells, cell]

theorem cells_fieldM : (cells po a m fmsk b xoa fmap e).getLsbD 20 = m.getLsbD 0 := by
  simp [cells, cell]

theorem cells_fieldFmsk : (cells po a m fmsk b xoa fmap e).extractLsb' 16 4 = fmsk := by
  apply BitVec.eq_of_getLsbD_eq; intro i hi
  interval_cases i <;> simp [cells, cell]

theorem cells_fieldFmap : (cells po a m fmsk b xoa fmap e).extractLsb' 6 4 = fmap := by
  apply BitVec.eq_of_getLsbD_eq; intro i hi
  interval_cases i <;> simp [cells, cell]

/-- The common mask keeps PO, XOa and bits 26 to 31, and nothing else (R73). -/
theorem cells_and_mask :
    cells po a m fmsk b xoa fmap e &&& opcodeMask = cell po 26 ||| cell xoa 10 ||| cell e 0 := by
  apply BitVec.eq_of_getLsbD_eq; intro i hi
  have hm : ∀ j, j < 32 → opcodeMask.getLsbD j = decide (j < 6 ∨ (10 ≤ j ∧ j < 13) ∨ 26 ≤ j) := by decide
  rw [BitVec.getLsbD_and, hm i hi]
  interval_cases i <;> simp [cells, cell]

end cells

/-! ## The three encoders in terms of the cells -/

theorem cw2Word_eq_cells (o : Cw2Opcode) (rt : GprNum) (m : Bool) (fmsk : Nibble) (bfa : CrFieldNum)
    (fmap : Nibble) (rc : Bool) :
    cw2Word o rt m fmsk bfa fmap rc =
      cells o.po (BitVec.ofFin (w := 5) rt) (BitVec.ofBool m) fmsk (BitVec.ofFin (w := 3) bfa) o.xoa fmap
        (cw2Low o rc) := by
  unfold cw2Word cells
  rw [BitVec.or_assoc _ (cell o.xob 1)]
  congr 1
  apply BitVec.eq_of_getLsbD_eq; intro i hi
  interval_cases i <;> simp [cell, cw2Low]

theorem cwWord_eq_cells (o : CwOpcode) (a : Fin 32) (m : Bool) (fmsk : Nibble) (b : CrFieldNum)
    (fmap : Nibble) :
    cwWord o a m fmsk b fmap =
      cells o.po (BitVec.ofFin (w := 5) a) (BitVec.ofBool m) fmsk (BitVec.ofFin (w := 3) b) o.xoa fmap o.xob :=
  rfl

/-- Bits 6:10 of the third CW-Form row: BF, then the blank cell. -/
def bfCells (bf : CrFieldNum) (rsv : BitVec 2) : BitVec 5 :=
  (BitVec.ofFin (w := 3) bf).setWidth 5 <<< 2 ||| rsv.setWidth 5

theorem bfCells_bf (bf : CrFieldNum) (rsv : BitVec 2) :
    (bfCells bf rsv).extractLsb' 2 3 = BitVec.ofFin (w := 3) bf := by
  apply BitVec.eq_of_getLsbD_eq; intro i hi
  interval_cases i <;> simp [bfCells]

theorem bfCells_rsv (bf : CrFieldNum) (rsv : BitVec 2) : (bfCells bf rsv).extractLsb' 0 2 = rsv := by
  apply BitVec.eq_of_getLsbD_eq; intro i hi
  interval_cases i <;> simp [bfCells]

theorem cwFieldWord_eq_cells (o : CwOpcode) (bf : CrFieldNum) (rsv : BitVec 2) (m : Bool) (fmsk : Nibble)
    (bfa : CrFieldNum) (fmap : Nibble) :
    cwFieldWord o bf rsv m fmsk bfa fmap =
      cells o.po (bfCells bf rsv) (BitVec.ofBool m) fmsk (BitVec.ofFin (w := 3) bfa) o.xoa fmap o.xob := by
  have h : cell (bfCells bf rsv) 21 = cell (BitVec.ofFin (w := 3) bf) 23 ||| cell rsv 21 := by
    apply BitVec.eq_of_getLsbD_eq; intro i hi
    interval_cases i <;> simp [cell, bfCells]
  unfold cwFieldWord cells
  rw [h, ← BitVec.or_assoc (cell o.po 26)]

theorem cw2Match_eq (o : Cw2Opcode) (rc : Bool) :
    cw2Match o rc = cell o.po 26 ||| cell o.xoa 10 ||| cell (cw2Low o rc) 0 := by
  unfold cw2Match
  rw [BitVec.or_assoc]
  congr 1
  apply BitVec.eq_of_getLsbD_eq; intro i hi
  interval_cases i <;> simp [cell, cw2Low]

theorem cwMatch_eq (o : CwOpcode) : cwMatch o = cell o.po 26 ||| cell o.xoa 10 ||| cell o.xob 0 := by
  simp [cwMatch, cell]

/-! ## Bytes -/

/-- A word is made of its own bytes, in either order (R43). -/
theorem wordOfBytes_byteOfWord (ord : ByteOrder) (w : InsnWord) :
    wordOfBytes ord (byteOfWord ord w 0) (byteOfWord ord w 1) (byteOfWord ord w 2) (byteOfWord ord w 3) = w := by
  apply BitVec.eq_of_getLsbD_eq; intro i hi
  cases ord <;> interval_cases i <;> simp [wordOfBytes, byteOfWord, cell]

/-- Four bytes, the first the most significant, make the number their digits in base 256 make. -/
theorem cells_bytes_toNat (a b c d : Byte) :
    (cell a 24 ||| cell b 16 ||| cell c 8 ||| cell d 0).toNat =
      a.toNat * 2 ^ 24 + b.toNat * 2 ^ 16 + c.toNat * 2 ^ 8 + d.toNat := by
  have h : (cell a 24 ||| cell b 16 ||| cell c 8 ||| cell d 0) = (a ++ b ++ c ++ d : BitVec (8+8+8+8)) := by
    apply BitVec.eq_of_getLsbD_eq; intro i hi
    simp only [cell, BitVec.getLsbD_append, BitVec.getLsbD_or, BitVec.getLsbD_shiftLeft,
      BitVec.getLsbD_setWidth]
    interval_cases i <;> simp
  rw [h]
  simp only [BitVec.toNat_append]
  rw [← Nat.shiftLeft_add_eq_or_of_lt d.isLt, ← Nat.shiftLeft_add_eq_or_of_lt c.isLt,
    ← Nat.shiftLeft_add_eq_or_of_lt b.isLt]
  simp only [Nat.shiftLeft_eq]
  omega

/-! ## A word as a number -/

/-- The cells are disjoint, so the word is their sum (R71). -/
theorem cells_toNat (po : BitVec 6) (a : BitVec 5) (m : BitVec 1) (f : Nibble) (b x : BitVec 3) (g : Nibble)
    (e : BitVec 6) :
    (cells po a m f b x g e).toNat =
      po.toNat * 2 ^ 26 + a.toNat * 2 ^ 21 + m.toNat * 2 ^ 20 + f.toNat * 2 ^ 16 + b.toNat * 2 ^ 13 +
        x.toNat * 2 ^ 10 + g.toNat * 2 ^ 6 + e.toNat := by
  have h : cells po a m f b x g e = (po ++ a ++ m ++ f ++ b ++ x ++ g ++ e : BitVec (6+5+1+4+3+3+4+6)) := by
    apply BitVec.eq_of_getLsbD_eq; intro i hi
    simp only [cells, cell, BitVec.getLsbD_append, BitVec.getLsbD_or, BitVec.getLsbD_shiftLeft,
      BitVec.getLsbD_setWidth]
    interval_cases i <;> simp
  rw [h]
  simp only [BitVec.toNat_append]
  rw [← Nat.shiftLeft_add_eq_or_of_lt e.isLt, ← Nat.shiftLeft_add_eq_or_of_lt g.isLt,
    ← Nat.shiftLeft_add_eq_or_of_lt x.isLt, ← Nat.shiftLeft_add_eq_or_of_lt b.isLt,
    ← Nat.shiftLeft_add_eq_or_of_lt f.isLt, ← Nat.shiftLeft_add_eq_or_of_lt m.isLt,
    ← Nat.shiftLeft_add_eq_or_of_lt a.isLt]
  simp only [Nat.shiftLeft_eq]
  omega

theorem cw2Low_toNat (o : Cw2Opcode) (rc : Bool) : (cw2Low o rc).toNat = o.xob.toNat * 2 + rc.toNat := by
  have h : ∀ (x : BitVec 5) (r : Bool),
      (x.setWidth 6 <<< 1 ||| (BitVec.ofBool r).setWidth 6).toNat = x.toNat * 2 + r.toNat := by decide
  exact h _ _

theorem bfCells_toNat (bf : CrFieldNum) (rsv : BitVec 2) :
    (bfCells bf rsv).toNat = bf.val * 4 + rsv.toNat := by
  revert bf rsv; decide

/-! ## Rows -/

theorem mem_all (mn : Mnemonic) : mn ∈ Mnemonic.all := by cases mn <;> decide

/-- Under `Disjoint`, two rows with one `match` value are one row. -/
theorem OpAssign.Disjoint.matchOf_injective {A : OpAssign} (h : A.Disjoint) {m n : Mnemonic}
    (e : A.matchOf m = A.matchOf n) : m = n :=
  List.inj_on_of_nodup_map h (mem_all m) (mem_all n) e

/-- What a decoded word says: its row is one whose `match` it has, and its operands are its fields. -/
theorem decodeWord_some {A : OpAssign} {w : InsnWord} {i : Instr} (h : decodeWord A w = some i) :
    ∃ mn, w &&& opcodeMask = A.matchOf mn ∧ i = instrOfRow mn w := by
  unfold decodeWord at h
  obtain ⟨mn, hr, rfl⟩ := Option.map_eq_some_iff.mp h
  exact ⟨mn, by simpa using List.find?_some hr, rfl⟩

theorem decodeWord_none {A : OpAssign} {w : InsnWord} (h : decodeWord A w = none) (mn : Mnemonic) :
    w &&& opcodeMask ≠ A.matchOf mn := by
  unfold decodeWord rowOf at h
  simpa using List.find?_eq_none.mp (Option.map_eq_none_iff.mp h) mn (mem_all mn)

/-- The row of a word that has the row's `match` bits. -/
theorem rowOf_of_match {A : OpAssign} (hA : A.Disjoint) {w : InsnWord} {mn : Mnemonic}
    (h : w &&& opcodeMask = A.matchOf mn) : rowOf A w = some mn := by
  unfold rowOf
  cases hf : Mnemonic.all.find? (fun m => w &&& opcodeMask == A.matchOf m) with
  | none => exact absurd h (by simpa using List.find?_eq_none.mp hf mn (mem_all mn))
  | some m =>
    have : w &&& opcodeMask = A.matchOf m := by simpa using List.find?_some hf
    rw [hA.matchOf_injective (this.symm.trans h)]

theorem instrOfRow_mnemonic (mn : Mnemonic) (w : InsnWord) : (instrOfRow mn w).mnemonic = mn := by
  cases mn <;> rfl

end Sys2Proof
end

