-- ==== Sys2Proof/Laws/Memory.lean ====
section
/-! SUPPORT. Storage: a read after a write, and the canonical form kept by every operation on it. -/

namespace Sys2Proof.Machine

@[simp] theorem read_nil (k : Nat) : Memory.read [] k = none := rfl

theorem read_cons (a : Nat) (b : Byte) (m : Memory) (k : Nat) :
    Memory.read ((a, b) :: m) k = if k = a then some b else Memory.read m k := rfl

/-- A read after a write: the byte written at its address, and as before at every other. -/
theorem read_write (m : Memory) (k j : Nat) (v : Byte) :
    Memory.read (Memory.write m k v) j = if j = k then some v else Memory.read m j := by
  induction m with
  | nil => simp [Memory.write, read_cons]
  | cons c m ih =>
    obtain ⟨a, b⟩ := c
    simp only [Memory.write]
    split
    · simp [read_cons]
    · split
      · subst_vars; simp only [read_cons]; split <;> rfl
      · simp only [read_cons, ih]
        split <;> split <;> simp_all

theorem mem_write {m : Memory} {k : Nat} {v : Byte} {c : Host.Cell} (h : c ∈ Memory.write m k v) :
    c = (k, v) ∨ c ∈ m := by
  induction m with
  | nil => simpa [Memory.write] using h
  | cons d m ih =>
    obtain ⟨a, b⟩ := d
    simp only [Memory.write] at h
    split at h
    · simpa using h
    · split at h
      · rcases List.mem_cons.mp h with h | h <;> simp [h]
      · rcases List.mem_cons.mp h with h | h
        · simp [h]
        · rcases ih h with h | h <;> simp [h]

theorem wf_cons {a : Nat} {b : Byte} {m : Memory} :
    Memory.wf ((a, b) :: m) = true ↔ a < 2 ^ 64 ∧ (∀ c ∈ m, a < c.1) ∧ Memory.wf m = true := by
  simp [Memory.wf, and_assoc]

/-- A write at an address of the address space keeps the canonical form. -/
theorem wf_write {m : Memory} (hm : Memory.wf m = true) {k : Nat} (hk : k < 2 ^ 64) (v : Byte) :
    Memory.wf (Memory.write m k v) = true := by
  induction m with
  | nil => simpa [Memory.write, wf_cons, Memory.wf] using hk
  | cons d m ih =>
    obtain ⟨a, b⟩ := d
    have h0 := hm
    rw [wf_cons] at hm
    simp only [Memory.write]
    split
    · rename_i hlt
      rw [wf_cons]
      refine ⟨hk, fun c hc => ?_, h0⟩
      rcases List.mem_cons.mp hc with hc | hc
      · simpa [hc] using hlt
      · have := hm.2.1 c hc; omega
    · split
      · subst_vars; rw [wf_cons]; exact ⟨hk, hm.2.1, hm.2.2⟩
      · rw [wf_cons]
        refine ⟨hm.1, fun c hc => ?_, ih hm.2.2⟩
        rcases mem_write hc with hc | hc
        · subst hc; simp; omega
        · exact hm.2.1 c hc

/-- Placing a word keeps the canonical form. -/
theorem wf_placeWord (s : State) (w : InsnWord) (h : Memory.wf s.mem = true) :
    Memory.wf (s.placeWord w).mem = true := by
  have step : ∀ (k : Nat) (m : Memory), Memory.wf m = true → Memory.wf (s.placeByte w k m) = true :=
    fun k m hm => wf_write hm (BitVec.isLt _) _
  have key := step 3 _ (step 2 _ (step 1 _ (step 0 _ h)))
  unfold State.placeWord
  simp only
  split <;> exact key

/-- The addresses of a text lie from its base to its end. -/
theorem mem_textImage {ord : ByteOrder} {ws : List InsnWord} {a : Nat} {c : Host.Cell}
    (h : c ∈ textImage ord a ws) : a ≤ c.1 ∧ c.1 < a + 4 * ws.length := by
  induction ws generalizing a with
  | nil => simp [textImage] at h
  | cons w ws ih =>
    simp only [textImage, wordCells, List.cons_append, List.nil_append, List.mem_cons] at h
    simp only [List.length_cons]
    rcases h with h | h | h | h | h
    · subst h; exact ⟨Nat.le_refl _, by simp⟩
    · subst h; simp only; omega
    · subst h; simp only; omega
    · subst h; simp only; omega
    · have := ih h; omega

/-- The text of a program that fits below 2^64 is in canonical form. -/
theorem wf_textImage (ord : ByteOrder) (ws : List InsnWord) (a : Nat) (h : a + 4 * ws.length ≤ 2 ^ 64) :
    Memory.wf (textImage ord a ws) = true := by
  induction ws generalizing a with
  | nil => rfl
  | cons w ws ih =>
    simp only [List.length_cons] at h
    have rest := ih (a + 4) (by omega)
    have above : ∀ c ∈ textImage ord (a + 4) ws, a + 4 ≤ c.1 := fun c hc => (mem_textImage hc).1
    simp only [textImage, wordCells, List.cons_append, List.nil_append, wf_cons, List.mem_cons]
    refine ⟨by omega, ?_, by omega, ?_, by omega, ?_, by omega, ?_, rest⟩
    · rintro c (rfl | rfl | rfl | hc)
      · simp
      · simp
      · simp
      · have := above c hc; omega
    · rintro c (rfl | rfl | hc)
      · simp
      · simp
      · have := above c hc; omega
    · rintro c (rfl | hc)
      · simp
      · have := above c hc; omega
    · intro c hc
      have := above c hc; omega

/-- Byte `k` of word `n` of a text stands at `a + 4n + k` (R42). -/
theorem read_textImage (ord : ByteOrder) (ws : List InsnWord) (a n k : Nat) (hn : n < ws.length) (hk : k < 4) :
    Memory.read (textImage ord a ws) (a + 4 * n + k) = some (byteOfWord ord ws[n] k) := by
  induction ws generalizing a n with
  | nil => simp at hn
  | cons w ws ih =>
    simp only [textImage, wordCells, List.cons_append, List.nil_append, read_cons]
    cases n with
    | zero =>
      obtain rfl | rfl | rfl | rfl : k = 0 ∨ k = 1 ∨ k = 2 ∨ k = 3 := by omega
      all_goals simp
    | succ n =>
      have e : a + 4 * (n + 1) + k = a + 4 + 4 * n + k := by omega
      rw [if_neg (by omega), if_neg (by omega), if_neg (by omega), if_neg (by omega), e]
      simpa using ih (a + 4) n (by simpa using hn)

end Sys2Proof.Machine
end

