-- ==== Sys2Proof/Laws/State.lean ====
section
/-! SUPPORT. One lemma for each field of `State` and each update of it, so that no proof unfolds a record
update. -/

namespace Sys2Proof.Machine

variable (s : State)

section writeGpr
variable (i : GprNum) (v : Dword)
@[simp] theorem writeGpr_gpr : (s.writeGpr i v).gpr = s.gpr.set i v := rfl
@[simp] theorem writeGpr_pc : (s.writeGpr i v).pc = s.pc := rfl
@[simp] theorem writeGpr_cr : (s.writeGpr i v).cr = s.cr := rfl
@[simp] theorem writeGpr_xerSO : (s.writeGpr i v).xerSO = s.xerSO := rfl
@[simp] theorem writeGpr_mem : (s.writeGpr i v).mem = s.mem := rfl
@[simp] theorem writeGpr_programBase : (s.writeGpr i v).programBase = s.programBase := rfl
@[simp] theorem writeGpr_programLength : (s.writeGpr i v).programLength = s.programLength := rfl
@[simp] theorem writeGpr_cfg : (s.writeGpr i v).cfg = s.cfg := rfl
end writeGpr

section writeCrField
variable (k : CrFieldNum) (v : Nibble)
@[simp] theorem writeCrField_gpr : (s.writeCrField k v).gpr = s.gpr := rfl
@[simp] theorem writeCrField_pc : (s.writeCrField k v).pc = s.pc := rfl
@[simp] theorem writeCrField_cr : (s.writeCrField k v).cr = crFieldSet s.cr k v := rfl
@[simp] theorem writeCrField_xerSO : (s.writeCrField k v).xerSO = s.xerSO := rfl
@[simp] theorem writeCrField_mem : (s.writeCrField k v).mem = s.mem := rfl
@[simp] theorem writeCrField_programBase : (s.writeCrField k v).programBase = s.programBase := rfl
@[simp] theorem writeCrField_programLength : (s.writeCrField k v).programLength = s.programLength := rfl
@[simp] theorem writeCrField_cfg : (s.writeCrField k v).cfg = s.cfg := rfl
end writeCrField

section writeCrBit
variable (j : CrBitNum) (b : Bool)
@[simp] theorem writeCrBit_gpr : (s.writeCrBit j b).gpr = s.gpr := rfl
@[simp] theorem writeCrBit_pc : (s.writeCrBit j b).pc = s.pc := rfl
@[simp] theorem writeCrBit_cr : (s.writeCrBit j b).cr = crBitSet s.cr j b := rfl
@[simp] theorem writeCrBit_xerSO : (s.writeCrBit j b).xerSO = s.xerSO := rfl
@[simp] theorem writeCrBit_mem : (s.writeCrBit j b).mem = s.mem := rfl
@[simp] theorem writeCrBit_programBase : (s.writeCrBit j b).programBase = s.programBase := rfl
@[simp] theorem writeCrBit_programLength : (s.writeCrBit j b).programLength = s.programLength := rfl
@[simp] theorem writeCrBit_cfg : (s.writeCrBit j b).cfg = s.cfg := rfl
end writeCrBit

section advancePc
@[simp] theorem advancePc_gpr : s.advancePc.gpr = s.gpr := rfl
@[simp] theorem advancePc_pc : s.advancePc.pc = s.pc + 4 := rfl
@[simp] theorem advancePc_cr : s.advancePc.cr = s.cr := rfl
@[simp] theorem advancePc_xerSO : s.advancePc.xerSO = s.xerSO := rfl
@[simp] theorem advancePc_mem : s.advancePc.mem = s.mem := rfl
@[simp] theorem advancePc_programBase : s.advancePc.programBase = s.programBase := rfl
@[simp] theorem advancePc_programLength : s.advancePc.programLength = s.programLength := rfl
@[simp] theorem advancePc_cfg : s.advancePc.cfg = s.cfg := rfl
end advancePc

section recordCr0
variable (rt : GprNum)
@[simp] theorem recordCr0_gpr : (s.recordCr0 rt).gpr = s.gpr := rfl
@[simp] theorem recordCr0_pc : (s.recordCr0 rt).pc = s.pc := rfl
@[simp] theorem recordCr0_cr :
    (s.recordCr0 rt).cr = crFieldSet s.cr 0 (analyse (s.readGpr rt) s.xerSO) := rfl
@[simp] theorem recordCr0_xerSO : (s.recordCr0 rt).xerSO = s.xerSO := rfl
@[simp] theorem recordCr0_mem : (s.recordCr0 rt).mem = s.mem := rfl
@[simp] theorem recordCr0_programBase : (s.recordCr0 rt).programBase = s.programBase := rfl
@[simp] theorem recordCr0_programLength : (s.recordCr0 rt).programLength = s.programLength := rfl
@[simp] theorem recordCr0_cfg : (s.recordCr0 rt).cfg = s.cfg := rfl
end recordCr0

section launch
variable (cfg : Config) (base : Dword) (words : List InsnWord) (gpr : Vector Dword 32)
  (cr : BitVec 32) (so : Bool)
@[simp] theorem launch_gpr : (State.launch cfg base words gpr cr so).gpr = gpr := rfl
@[simp] theorem launch_pc : (State.launch cfg base words gpr cr so).pc = base := rfl
@[simp] theorem launch_cr : (State.launch cfg base words gpr cr so).cr = cr := rfl
@[simp] theorem launch_xerSO : (State.launch cfg base words gpr cr so).xerSO = so := rfl
@[simp] theorem launch_mem :
    (State.launch cfg base words gpr cr so).mem = textImage cfg.insnByteOrder base.toNat words := rfl
@[simp] theorem launch_programBase : (State.launch cfg base words gpr cr so).programBase = base := rfl
@[simp] theorem launch_programLength :
    (State.launch cfg base words gpr cr so).programLength = words.length := rfl
@[simp] theorem launch_cfg : (State.launch cfg base words gpr cr so).cfg = cfg := rfl
end launch

end Sys2Proof.Machine
end

