-- ==== Sys2Proof/Laws/Registers.lean ====
section
/-! SUPPORT. What the register and Condition Register operations do, and what the flag computations say of
each bit, in the source's MSB0 numbering: `cr.getMsbD q` is CR bit `32 + q`. -/

namespace Sys2Proof.Machine

/-! ## General registers -/

@[simp] theorem readGpr_eq (s : State) (i : GprNum) : s.readGpr i = s.gpr[i] := rfl

theorem gprSet_get (g : Vector Dword 32) (i j : GprNum) (v : Dword) :
    (g.set i v)[j] = if j = i then v else g[j] := by
  simp [Vector.getElem_set, Fin.ext_iff, eq_comm]

@[simp] theorem gprSet_get_same (g : Vector Dword 32) (i : GprNum) (v : Dword) : (g.set i v)[i] = v := by
  simp

theorem gprSet_get_other (g : Vector Dword 32) {i j : GprNum} (v : Dword) (h : j ≠ i) :
    (g.set i v)[j] = g[j] := by
  rw [gprSet_get, if_neg h]

/-! ## The Condition Register -/

theorem fifteen_getLsbD (n : Nat) : (15#32).getLsbD n = decide (n < 4) := by
  have h : Nat.testBit 15 n = decide (n < 4) := Nat.testBit_two_pow_sub_one 4 n
  simp only [BitVec.getLsbD_ofNat, h]
  by_cases hn : n < 4 <;> simp [hn]; omega

theorem one_getLsbD (n : Nat) : (1#32).getLsbD n = decide (n = 0) := by
  have h : Nat.testBit 1 n = decide (n < 1) := Nat.testBit_two_pow_sub_one 1 n
  simp only [BitVec.getLsbD_ofNat, h]
  by_cases hn : n = 0 <;> simp [hn]

/-- `CRF(k)` is CR bits `32 + 4k` to `32 + 4k + 3`, most significant first (R25). -/
theorem crField_getMsbD (cr : BitVec 32) (k : CrFieldNum) (p : Nat) (hp : p < 4) :
    (crField cr k).getMsbD p = cr.getMsbD (4 * k.val + p) := by
  have hk := k.isLt
  have e : 28 - 4 * k.val + (3 - p) = 31 - (4 * k.val + p) := by omega
  have h1 : 3 - p < 4 := by omega
  have h2 : 4 * k.val + p < 32 := by omega
  simp [crField, BitVec.getMsbD, hp, h1, h2, e]

/-- Writing `CRF(k)` writes its four bits and keeps the other 28 (R17). -/
theorem crFieldSet_getMsbD (cr : BitVec 32) (k : CrFieldNum) (v : Nibble) (q : Nat) (hq : q < 32) :
    (crFieldSet cr k v).getMsbD q = if q / 4 = k.val then v.getMsbD (q % 4) else cr.getMsbD q := by
  have hk := k.isLt
  have hl : 31 - q < 32 := by omega
  by_cases h : q / 4 = k.val
  · have h1 : ¬ 31 - q < 28 - 4 * k.val := by omega
    have h2 : 31 - q - (28 - 4 * k.val) = 3 - q % 4 := by omega
    have h3 : 3 - q % 4 < 4 := by omega
    have h4 : q % 4 < 4 := by omega
    have h5 : 3 - q % 4 < 32 := by omega
    simp only [crFieldSet, BitVec.getMsbD, hq, h, h4, if_true, decide_true, Bool.true_and,
      BitVec.getLsbD_or, BitVec.getLsbD_and, BitVec.getLsbD_not, BitVec.getLsbD_shiftLeft,
      fifteen_getLsbD, BitVec.getLsbD_setWidth, hl, h1, h2, h3, h5]
    simp only [decide_false, Bool.not_false, Bool.true_and, Bool.not_true, Bool.and_false, Bool.false_or]
  · simp only [crFieldSet, BitVec.getMsbD, hq, h, if_false, decide_true, Bool.true_and,
      BitVec.getLsbD_or, BitVec.getLsbD_and, BitVec.getLsbD_not, BitVec.getLsbD_shiftLeft,
      fifteen_getLsbD, BitVec.getLsbD_setWidth, hl]
    by_cases h1 : 31 - q < 28 - 4 * k.val
    · simp [h1]
    · have h2 : ¬ 31 - q - (28 - 4 * k.val) < 4 := by omega
      have h3 : v.getLsbD (31 - q - (28 - 4 * k.val)) = false :=
        BitVec.getLsbD_of_ge _ _ (by omega)
      simp [h1, h2, h3]

/-- Writing `CRbit(j)` writes that bit and keeps the other 31 (R17). -/
theorem crBitSet_getMsbD (cr : BitVec 32) (j : CrBitNum) (b : Bool) (q : Nat) (hq : q < 32) :
    (crBitSet cr j b).getMsbD q = if q = j.val then b else cr.getMsbD q := by
  have hj := j.isLt
  have hl : 31 - q < 32 := by omega
  simp only [crBitSet, BitVec.getMsbD, hq, decide_true, Bool.true_and, BitVec.getLsbD_or,
    BitVec.getLsbD_and, BitVec.getLsbD_not, BitVec.getLsbD_shiftLeft, one_getLsbD,
    BitVec.getLsbD_setWidth, hl, BitVec.getLsbD_ofBool]
  by_cases h : q = j.val
  · subst h; simp
  · by_cases h1 : 31 - q < 31 - j.val
    · simp [h, h1]
    · have h2 : ¬ 31 - q - (31 - j.val) = 0 := by omega
      simp [h, h1, h2]

theorem crBit_eq_getMsbD (cr : BitVec 32) (j : CrBitNum) : crBit cr j = cr.getMsbD j.val := by
  simp [crBit, BitVec.getMsbD]

/-- Two CRs are equal when their 32 bits are. -/
theorem cr_ext {a b : BitVec 32} (h : ∀ q, q < 32 → a.getMsbD q = b.getMsbD q) : a = b :=
  BitVec.eq_of_getMsbD_eq fun q hq => h q hq

theorem crField_crFieldSet_same (cr : BitVec 32) (k : CrFieldNum) (v : Nibble) :
    crField (crFieldSet cr k v) k = v := by
  apply BitVec.eq_of_getMsbD_eq
  intro p hp
  have hk := k.isLt
  rw [crField_getMsbD _ _ _ hp, crFieldSet_getMsbD _ _ _ _ (by omega), if_pos (by omega)]
  congr 1; omega

theorem crField_crFieldSet_other (cr : BitVec 32) {k j : CrFieldNum} (v : Nibble) (h : j ≠ k) :
    crField (crFieldSet cr k v) j = crField cr j := by
  apply BitVec.eq_of_getMsbD_eq
  intro p hp
  have hj := j.isLt
  have : j.val ≠ k.val := fun e => h (Fin.ext e)
  rw [crField_getMsbD _ _ _ hp, crField_getMsbD _ _ _ hp, crFieldSet_getMsbD _ _ _ _ (by omega),
    if_neg (by omega)]

/-! ## The flag computations, bit by bit -/

/-- R12: bit `p` of the match word is 1 when `fmsk` selects it and the two bits agree. -/
theorem matchWord_getMsbD (creg fmsk fmap : Nibble) (p : Nat) (hp : p < 4) :
    (matchWord creg fmsk fmap).getMsbD p =
      (fmsk.getMsbD p && (creg.getMsbD p == fmap.getMsbD p)) := by
  simp only [matchWord, BitVec.getMsbD_and, BitVec.getMsbD_xor, BitVec.getMsbD_not, hp, decide_true,
    Bool.true_and]
  cases creg.getMsbD p <;> cases fmap.getMsbD p <;> cases fmsk.getMsbD p <;> rfl

/-- The merge of M = 1, bit by bit: unselected bits take the old field's. -/
theorem mergeField_getMsbD (m : Bool) (r old fmsk : Nibble) (p : Nat) (hp : p < 4) :
    (mergeField m r old fmsk).getMsbD p =
      (r.getMsbD p || (m && old.getMsbD p && !fmsk.getMsbD p)) := by
  cases m <;> simp [mergeField, hp]

@[simp] theorem lowNibble_getMsbD (a : Dword) (p : Nat) (hp : p < 4) :
    (lowNibble a).getMsbD p = a.getMsbD (60 + p) := by
  have h1 : 3 - p < 4 := by omega
  have h2 : 60 + p < 64 := by omega
  have e : 63 - (60 + p) = 3 - p := by omega
  simp [lowNibble, BitVec.getMsbD, hp, h1, h2, e]

@[simp] theorem lowBitFourTimes_getMsbD (a : Dword) (p : Nat) (hp : p < 4) :
    (lowBitFourTimes a).getMsbD p = a.getMsbD 63 := by
  have h15 : ∀ n, n < 4 → (15#4).getMsbD n = true := by decide
  unfold lowBitFourTimes
  cases h : a.getLsbD 0
  · have : a.getMsbD 63 = false := by simpa [BitVec.getMsbD] using h
    simp [this]
  · have : a.getMsbD 63 = true := by simpa [BitVec.getMsbD] using h
    simpa [this] using h15 p hp

theorem zextBit_toNat (b : Bool) : (zextBit b).toNat = b.toNat := by cases b <;> rfl

theorem zextNibble_toNat (v : Nibble) : (zextNibble v).toNat = v.toNat := by
  simp [zextNibble]; omega

/-- R28 on the only values a record form analyses, 0 to 15: EQ for zero, GT for any other, SO copied. -/
theorem analyse_of_lt_sixteen (v : Dword) (so : Bool) (h : v.toNat < 16) :
    analyse v so = if v = 0 then BitVec.ofBool false ++ BitVec.ofBool false ++ BitVec.ofBool true ++ BitVec.ofBool so
      else BitVec.ofBool false ++ BitVec.ofBool true ++ BitVec.ofBool false ++ BitVec.ofBool so := by
  have hneg : v.slt 0 = false := by
    simp [BitVec.slt, BitVec.toInt_eq_toNat_cond]; omega
  have hpos : (0#64).slt v = !(v == 0) := by
    rw [Bool.eq_iff_iff]
    simp [BitVec.slt, BitVec.toInt_eq_toNat_cond, BitVec.toNat_eq]; omega
  unfold analyse
  rw [hneg, hpos]
  by_cases hv : v = 0
  · simp [hv]
  · have hb : (v == 0) = false := by simpa using hv
    rw [hb, if_neg hv]; rfl

end Sys2Proof.Machine
end

