-- ==== Sys2Proof/Laws/Exec.lean ====
section
/-! SUPPORT. Said once: what an execution that goes on can do, and what a step can do. -/

namespace Sys2Proof.Machine

/-- `t` differs from `s` in the pc and, besides, in one GPR with a value under 16 and perhaps CR0, or in one
CR field, or in one CR bit. -/
inductive Effect (s : State) : State → Prop where
  | gpr (rt : GprNum) (v : Dword) (h : v.toNat < 16) : Effect s (s.writeGpr rt v).advancePc
  | gprRecord (rt : GprNum) (v : Dword) (h : v.toNat < 16) :
    Effect s ((s.writeGpr rt v).recordCr0 rt).advancePc
  | crField (k : CrFieldNum) (v : Nibble) : Effect s (s.writeCrField k v).advancePc
  | crBit (j : CrBitNum) (b : Bool) : Effect s (s.writeCrBit j b).advancePc

theorem zextBit_lt (b : Bool) : (zextBit b).toNat < 16 := by cases b <;> decide

theorem zextNibble_lt (v : Nibble) : (zextNibble v).toNat < 16 := by
  rw [zextNibble_toNat]; exact v.isLt

/-- Everything an execution that goes on can do. -/
theorem exec_next {i : Instr} {s t : State} (h : exec i s = .next t) : Effect s t := by
  cases i with
  | crrweird rt bfa m fmsk fmap =>
    obtain rfl := Host.Outcome.next.inj h; exact .gpr _ _ (zextBit_lt _)
  | crrweirdRc rt bfa m fmsk fmap =>
    obtain rfl := Host.Outcome.next.inj h; exact .gprRecord _ _ (zextBit_lt _)
  | mfcrrweird rt bfa fmsk fmap rsvM =>
    simp only [exec, execMfcrrweird, refuseReserved] at h
    split at h
    · exact absurd h (by simp)
    · obtain rfl := Host.Outcome.next.inj h; exact .gpr _ _ (zextNibble_lt _)
  | mfcrrweirdRc rt bfa fmsk fmap rsvM =>
    simp only [exec, execMfcrrweirdRc, refuseReserved] at h
    split at h
    · exact absurd h (by simp)
    · obtain rfl := Host.Outcome.next.inj h; exact .gprRecord _ _ (zextNibble_lt _)
  | mtcrrweird bf ra m fmsk fmap => obtain rfl := Host.Outcome.next.inj h; exact .crField _ _
  | mtcrweird bf ra m fmsk fmap => obtain rfl := Host.Outcome.next.inj h; exact .crField _ _
  | mcrfm bf bfa m fmsk fmap rsv =>
    simp only [exec, execMcrfm, refuseReserved] at h
    split at h
    · exact absurd h (by simp)
    · obtain rfl := Host.Outcome.next.inj h; exact .crField _ _
  | crweirder bt bfa m fmsk fmap => obtain rfl := Host.Outcome.next.inj h; exact .crBit _ _

/-- An execution never faults. -/
theorem exec_ne_fault (i : Instr) (s : State) (f : Fault) : exec i s ≠ .fault f := by
  intro h
  cases i <;>
    simp only [exec, execCrrweird, execCrrweirdRc, execMfcrrweird, execMfcrrweirdRc, execMtcrrweird,
      execMtcrweird, execMcrfm, execCrweirder, refuseReserved, reduceCtorEq] at h <;>
    split at h <;> simp at h

/-- Everything a step that goes on does: it fetches a word in the text, decodes it and executes it. -/
theorem step_next {s t : State} (h : step s = .next t) :
    ∃ w i, s.fetchWord = some w ∧ decodeWord s.cfg.opAssign w = some i ∧ exec i s = .next t := by
  unfold step at h
  split at h
  · exact absurd h (by simp)
  · split at h
    · exact absurd h (by simp [raiseFetchFault])
    · rename_i w hw
      split at h
      · exact absurd h (by simp [raiseIllegalInstruction])
      · rename_i i hi
        exact ⟨w, i, hw, hi, h⟩

/-- A word is fetched only inside the text and at an aligned pc. -/
theorem fetchWord_some {s : State} {w : InsnWord} (h : s.fetchWord = some w) :
    s.inText = true ∧ s.pc.toNat % 4 = 0 := by
  unfold State.fetchWord at h
  split at h
  · rename_i hc; simpa using hc
  · exact absurd h (by simp)

theorem isFinal_of_inText {s : State} (h : s.inText = true) : s.isFinal = false := by
  simp [State.isFinal, h]

theorem inText_iff {s : State} : s.inText = true ↔
    s.programBase.toNat ≤ s.pc.toNat ∧ s.pc.toNat < s.programBase.toNat + 4 * s.programLength := by
  simp [State.inText]

theorem endAddress_toNat (s : State) :
    s.endAddress.toNat = (s.programBase.toNat + 4 * s.programLength) % 2 ^ 64 := by
  simp [State.endAddress, BitVec.toNat_add]

/-- The byte fetched at offset `k` from an aligned pc is the one at the next address up: no wrap. -/
theorem fetchByte_aligned {s : State} (h : s.pc.toNat % 4 = 0) {k : Nat} (hk : k < 4) :
    s.fetchByte k = Memory.read s.mem (s.pc.toNat + k) := by
  have := s.pc.isLt
  unfold State.fetchByte
  congr 1
  rw [BitVec.toNat_add, BitVec.toNat_ofNat]; omega

/-- Every effect advances the pc and keeps `XER.SO`, storage and the parameters. -/
theorem Effect.advanced {s t : State} (h : Effect s t) :
    t.pc = s.pc + 4 ∧ t.xerSO = s.xerSO ∧ t.mem = s.mem ∧ t.programBase = s.programBase ∧
      t.programLength = s.programLength ∧ t.cfg = s.cfg := by
  cases h <;> simp

end Sys2Proof.Machine
end

