-- ==== Sys2Proof/Laws/Claims.lean ====
section
/-! SUPPORT. The bridge from the operations to the vocabulary of the claims (Safety.lean). -/

namespace Sys2Proof.Machine

theorem Effect.toAdvanced {s t : State} (h : Effect s t) : Advanced s t := by
  obtain ⟨a, b, c, d, e, f⟩ := h.advanced
  exact ⟨a, b, fun x => by rw [c], d, e, f⟩

/-! ## Reading -/

theorem readCrField_getMsbD (s : State) (k : CrFieldNum) (p : Nat) (hp : p < 4) :
    (s.readCrField k).getMsbD p = s.cr.getMsbD (4 * k.val + p) := crField_getMsbD _ _ _ hp

/-- `(RA|0)` bit by bit (R15). -/
theorem ra0_getMsbD (s : State) (ra : GprNum) (n : Nat) :
    (s.ra0 ra).getMsbD n = (decide (ra ≠ 0) && s.gpr[ra].getMsbD n) := by
  unfold State.ra0; split <;> simp_all

/-- The upper 60 bits of a 4-bit result are zero and the low four are the result (R9). -/
theorem zextNibble_getMsbD_high (v : Nibble) (n : Nat) (hn : n < 60) : (zextNibble v).getMsbD n = false := by
  simp only [zextNibble, BitVec.getMsbD, BitVec.getLsbD_setWidth]
  rw [BitVec.getLsbD_of_ge v _ (by omega)]; simp

theorem zextNibble_getMsbD_low (v : Nibble) (p : Nat) (hp : p < 4) :
    (zextNibble v).getMsbD (60 + p) = v.getMsbD p := by
  have h1 : 64 - 1 - (60 + p) = 4 - 1 - p := by omega
  have h2 : 4 - 1 - p < 64 := by omega
  have h3 : 60 + p < 64 := by omega
  simp only [zextNibble, BitVec.getMsbD, BitVec.getLsbD_setWidth]
  rw [h1]; simp [hp, h2, h3]

/-- R104: the reduction of the match word says what the set K says. -/
theorem verdict_eq_decide (cr : BitVec 32) (k : CrFieldNum) (m : Bool) (fmsk fmap : Nibble) :
    verdict m (matchWord (crField cr k) fmsk fmap) fmsk = decide (Verdict cr k m fmsk fmap) := by
  have hb : ∀ p : Fin 4, (matchWord (crField cr k) fmsk fmap).getMsbD p =
      (fmsk.getMsbD p && (cr.getMsbD (4 * k.val + p) == fmap.getMsbD p)) := fun p => by
    rw [matchWord_getMsbD _ _ _ _ p.isLt, crField_getMsbD _ _ _ p.isLt]
  rw [Bool.eq_iff_iff, decide_eq_true_iff]
  cases m
  · simp only [verdict, Verdict, Bool.false_eq_true, if_false, beq_iff_eq]
    constructor
    · intro h p hp
      have := hb p
      rw [h, hp] at this
      exact ⟨hp, by simpa using this.symm⟩
    · intro h
      apply BitVec.eq_of_getMsbD_eq; intro i hi
      rw [hb ⟨i, hi⟩]
      cases hf : fmsk.getMsbD i
      · rfl
      · simpa using (h ⟨i, hi⟩ hf).2
  · simp only [verdict, Verdict, if_true, bne_iff_ne, ne_eq]
    constructor
    · intro h
      by_contra hn
      refine h (BitVec.eq_of_getMsbD_eq fun i hi => ?_)
      rw [hb ⟨i, hi⟩]
      cases hf : fmsk.getMsbD i
      · simp
      · have hne : ¬ Agrees cr k fmsk fmap ⟨i, hi⟩ := fun ha => hn ⟨_, ha⟩
        simp only [Agrees, hf, true_and] at hne
        simpa using hne
    · rintro ⟨p, h1, h2⟩ h
      have := hb p
      rw [h, h1, h2] at this; simp at this

/-! ## Writing -/

theorem gprsKeptBut_writeGpr (s : State) (rt : GprNum) (v : Dword) :
    GprsKeptBut rt s (s.writeGpr rt v).advancePc := fun _ hr => gprSet_get_other _ _ hr

theorem gprsKeptBut_record (s : State) (rt : GprNum) (v : Dword) :
    GprsKeptBut rt s ((s.writeGpr rt v).recordCr0 rt).advancePc := fun _ hr => gprSet_get_other _ _ hr

theorem writeCrField_getMsbD (s : State) (k : CrFieldNum) (v : Nibble) (p : Nat) (hp : p < 4) :
    (s.writeCrField k v).advancePc.cr.getMsbD (4 * k.val + p) = v.getMsbD p := by
  have := k.isLt
  rw [advancePc_cr, writeCrField_cr, crFieldSet_getMsbD _ _ _ _ (by omega), if_pos (by omega)]
  congr 1; omega

theorem crKeptOutside_writeCrField (s : State) (k : CrFieldNum) (v : Nibble) :
    CrKeptOutside k s (s.writeCrField k v).advancePc := fun q hq hn => by
  rw [advancePc_cr, writeCrField_cr, crFieldSet_getMsbD _ _ _ _ hq, if_neg hn]

/-- The record of CR0 on a value under 16 (R28, R101, R103). -/
theorem cr0Recorded_record (s : State) (rt : GprNum) (v : Dword) (h : v.toNat < 16) :
    Cr0Recorded v.toNat s ((s.writeGpr rt v).recordCr0 rt).advancePc := by
  have hv : (v = 0) ↔ v.toNat = 0 := by rw [← BitVec.toNat_inj]; simp
  have hb : ∀ q, q < 4 → ((s.writeGpr rt v).recordCr0 rt).advancePc.cr.getMsbD q =
      (analyse v s.xerSO).getMsbD q := fun q hq => by
    simp only [advancePc_cr, recordCr0_cr, writeGpr_cr, writeGpr_xerSO, readGpr_eq, writeGpr_gpr,
      gprSet_get_same]
    rw [crFieldSet_getMsbD _ _ _ _ (by omega), if_pos (show q / 4 = (0 : CrFieldNum).val by show q / 4 = 0; omega), Nat.mod_eq_of_lt hq]
  have ha := analyse_of_lt_sixteen v s.xerSO h
  constructor
  · rw [hb 0 (by omega), ha]; split <;> cases s.xerSO <;> rfl
  · rw [hb 1 (by omega), ha]; split <;> cases s.xerSO <;> simp_all
  · rw [hb 2 (by omega), ha]; split <;> cases s.xerSO <;> simp_all
  · rw [hb 3 (by omega), ha]; split <;> cases s.xerSO <;> rfl
  · intro q hq hn
    simp only [advancePc_cr, recordCr0_cr, writeGpr_cr]
    rw [crFieldSet_getMsbD _ _ _ _ hq, if_neg hn]

end Sys2Proof.Machine
end

