-- ==== Sys2Proof/Laws/PerInstr.lean ====
section
/-! SUPPORT. Statements made for each constructor of `Instr`, one lemma a constructor. -/

namespace Sys2Proof.Laws.MatchBits

/-- The encoder writes the fixed bits of the instruction's row (R73), whatever the operands. -/
def Statement (i : Instr) : Prop := ∀ A : OpAssign, encode A i &&& opcodeMask = A.matchOf i.mnemonic

theorem of_cw2 (o : Cw2Opcode) (rt : GprNum) (m : Bool) (fmsk : Nibble) (bfa : CrFieldNum) (fmap : Nibble)
    (rc : Bool) : cw2Word o rt m fmsk bfa fmap rc &&& opcodeMask = cw2Match o rc := by
  rw [cw2Word_eq_cells, cells_and_mask, cw2Match_eq]

theorem of_cw (o : CwOpcode) (a : Fin 32) (m : Bool) (fmsk : Nibble) (b : CrFieldNum) (fmap : Nibble) :
    cwWord o a m fmsk b fmap &&& opcodeMask = cwMatch o := by
  rw [cwWord_eq_cells, cells_and_mask, cwMatch_eq]

theorem of_cwField (o : CwOpcode) (bf : CrFieldNum) (rsv : BitVec 2) (m : Bool) (fmsk : Nibble)
    (bfa : CrFieldNum) (fmap : Nibble) : cwFieldWord o bf rsv m fmsk bfa fmap &&& opcodeMask = cwMatch o := by
  rw [cwFieldWord_eq_cells, cells_and_mask, cwMatch_eq]

theorem crrweird (rt : GprNum) (bfa : CrFieldNum) (m : Bool) (fmsk fmap : Nibble) :
    Statement (.crrweird rt bfa m fmsk fmap) := fun _ => of_cw2 ..

theorem crrweirdRc (rt : GprNum) (bfa : CrFieldNum) (m : Bool) (fmsk fmap : Nibble) :
    Statement (.crrweirdRc rt bfa m fmsk fmap) := fun _ => of_cw2 ..

theorem mfcrrweird (rt : GprNum) (bfa : CrFieldNum) (fmsk fmap : Nibble) (rsvM : Bool) :
    Statement (.mfcrrweird rt bfa fmsk fmap rsvM) := fun _ => of_cw2 ..

theorem mfcrrweirdRc (rt : GprNum) (bfa : CrFieldNum) (fmsk fmap : Nibble) (rsvM : Bool) :
    Statement (.mfcrrweirdRc rt bfa fmsk fmap rsvM) := fun _ => of_cw2 ..

theorem mtcrrweird (bf : CrFieldNum) (ra : GprNum) (m : Bool) (fmsk fmap : Nibble) :
    Statement (.mtcrrweird bf ra m fmsk fmap) := fun _ => of_cw ..

theorem mtcrweird (bf : CrFieldNum) (ra : GprNum) (m : Bool) (fmsk fmap : Nibble) :
    Statement (.mtcrweird bf ra m fmsk fmap) := fun _ => of_cw ..

theorem mcrfm (bf bfa : CrFieldNum) (m : Bool) (fmsk fmap : Nibble) (rsv : BitVec 2) :
    Statement (.mcrfm bf bfa m fmsk fmap rsv) := fun _ => of_cwField ..

theorem crweirder (bt : CrBitNum) (bfa : CrFieldNum) (m : Bool) (fmsk fmap : Nibble) :
    Statement (.crweirder bt bfa m fmsk fmap) := fun _ => of_cw ..

end Sys2Proof.Laws.MatchBits
end

