-- ==== Sys2Proof/Laws/Run.lean ====
section
/-! SUPPORT. Running the host's machine, step by step. -/

namespace Sys2Proof.Machine

section anyCore
variable (M : Host.Core) (n : Nat) (s u : M.State)

theorem coreRun_next (h : M.step s = .next u) : M.run (n + 1) s = M.run n u := by
  rw [Host.Core.run, h]

theorem coreRun_fault (f : M.Fault) (h : M.step s = .fault f) : M.run (n + 1) s = .fault f := by
  rw [Host.Core.run, h]

theorem coreRun_refused (r : M.Refusal) (h : M.step s = .refused r) : M.run (n + 1) s = .refused r := by
  rw [Host.Core.run, h]

end anyCore

theorem run_of_next {s u : State} (h : step s = .next u) (n : Nat) : core.run (n + 1) s = core.run n u :=
  coreRun_next core n s u h

theorem run_of_fault {s : State} {f : Fault} (h : step s = .fault f) (n : Nat) :
    core.run (n + 1) s = .fault f :=
  coreRun_fault core n s f h

theorem run_of_refused {s : State} {r : Refusal} (h : step s = .refused r) (n : Nat) :
    core.run (n + 1) s = .refused r :=
  coreRun_refused core n s r h

theorem run_zero_next {s t : State} (h : core.run 0 s = .next t) : s = t := by
  injection h

/-- A run of at least one step that goes on goes on by its first. -/
theorem run_succ_next {n : Nat} {s t : State} (h : core.run (n + 1) s = .next t) :
    ∃ u, step s = .next u ∧ core.run n u = .next t := by
  cases hs : step s with
  | next u => exact ⟨u, rfl, (run_of_next hs n).symm.trans h⟩
  | fault f => exact absurd ((run_of_fault hs n).symm.trans h) (by intro h; cases h)
  | refused r => exact absurd ((run_of_refused hs n).symm.trans h) (by intro h; cases h)

end Sys2Proof.Machine
end

