-- ==== Sys2Proof/Laws/Svp64.lean ====
section
/-! SUPPORT. The transcribed vector forms: the elements visited, their packing, and their predication. -/

namespace Sys2Proof.Machine

theorem svElements_vector {inp : SvInputs} (h : inp.rtIsvec = true) : svElements inp = List.range inp.vl := by
  simp [svElements, h]

/-- A scalar RT visits every element with map-reduce and the first alone without. -/
theorem svElements_scalar {inp : SvInputs} (h : inp.rtIsvec = false) :
    svElements inp = List.range (if inp.mapreduce then inp.vl else min 1 inp.vl) := by
  cases hm : inp.mapreduce <;> simp [svElements, h, hm]

/-- A scalar RT overflows exactly when the loop would visit more elements than it has room for. -/
theorem svOverflows_iff {inp : SvInputs} {limit : Nat} (hl : 1 ≤ limit) :
    svOverflows inp limit = true ↔ limit < (if inp.mapreduce then inp.vl else min 1 inp.vl) := by
  cases hm : inp.mapreduce
  · simp [svOverflows, hm]; omega
  · simp [svOverflows, hm]

theorem destOverride_iff (inp : SvInputs) : destOverride inp = true ↔ inp.rtElwidth ≠ 0 := by
  have h : ∀ e : BitVec 2, (destElwidthBits e != 64) = true ↔ e ≠ 0 := by decide
  exact h _

theorem packCount_eq (e : BitVec 2) : packCount e = [1, 2, 4, 8][e.toNat]! := by
  revert e; decide

/-- At the default width the limits of the loop are its packing count (R139). -/
theorem nibblesPerRegister_default {inp : SvInputs} (h : inp.rtElwidth = 0) :
    nibblesPerRegister inp = [1, 2, 4, 8][inp.bbElwidth.toNat]! := by
  have hb : ∀ e : BitVec 2, (match e.toNat with
      | 0 => 1 | 1 => 2 | 2 => min 4 (destElwidthBits 0 / 2) | _ => min 8 (destElwidthBits 0 / 2)) =
      [1, 2, 4, 8][e.toNat]! := by decide
  unfold nibblesPerRegister
  rw [h]; exact hb _

/-- An element is inactive exactly when a mask is named and its bit is 0. -/
theorem svActive_iff (inp : SvInputs) (i : Nat) : svActive inp i = true ↔ ¬ SvMasked inp i := by
  unfold svActive SvMasked
  cases inp.dm with
  | none => simp
  | some d =>
    simp only [BitVec.getLsbD, Nat.testBit_eq_decide_div_mod_eq, decide_eq_true_eq, Option.some.injEq,
      exists_eq_left']
    omega

/-- The check of predication over the first elements is what the claims call settled. -/
theorem svSettled_range (inp : SvInputs) (count : Nat) :
    svSettled inp (List.range count) = true ↔ SvSettled inp count := by
  simp only [svSettled, SvSettled, Bool.and_eq_true, Option.isNone_iff_eq_none, List.all_eq_true, List.mem_range,
    Bool.or_eq_true, decide_eq_true_eq, svActive_iff]

/-- What an element writes. -/
theorem svResult_writes {α : Type} (inp : SvInputs) (i : Nat) (zero n : α) :
    SvWrites inp i zero n (svResult inp i zero n) := by
  constructor
  · intro h
    have : ¬ svActive inp i = true := fun ha => (svActive_iff inp i).mp ha h
    simp [svResult, this]
  · intro h; simp [svResult, (svActive_iff inp i).mpr h]

/-- The match word of an element is the one whose bits the claims give. -/
theorem svMatch_unique {inp : SvInputs} {crOf : Nat → Nibble} {bb i : Nat} {fmsk fmap n : Nibble}
    (h : SvMatch inp crOf bb i fmsk fmap n) : matchWord (svSource inp crOf bb i) fmsk fmap = n := by
  apply BitVec.eq_of_getMsbD_eq; intro p hp
  rw [h p hp, matchWord_getMsbD _ _ _ _ hp]
  unfold svSource; split <;> rfl

/-- A loop of two writes an element: writes `2i` and `2i + 1` are those of element `i`. -/
theorem getElem?_pairs {α : Type} (f g : Nat → α) (n i : Nat) :
    ((List.range n).flatMap fun i => [f i, g i])[2 * i]? = (if i < n then some (f i) else none) ∧
      ((List.range n).flatMap fun i => [f i, g i])[2 * i + 1]? = (if i < n then some (g i) else none) := by
  induction n with
  | zero => simp
  | succ n ih =>
    have hl : ((List.range n).flatMap fun i => [f i, g i]).length = 2 * n := by simp [Nat.mul_comm]
    rw [List.range_succ, List.flatMap_append]
    by_cases hin : i < n
    · rw [List.getElem?_append_left (by omega), List.getElem?_append_left (by omega), ih.1, ih.2]
      simp [hin]; omega
    · rw [List.getElem?_append_right (by omega), List.getElem?_append_right (by omega), hl]
      by_cases e : i = n
      · subst e; simp
      · have : ¬ i < n + 1 := by omega
        simp [this]; omega

/-- The verdict as a number (R104, R134). -/
theorem verdict_toNat (m : Bool) (n fmsk : Nibble) :
    (verdict m n fmsk).toNat = if (if m then n ≠ 0 else n = fmsk) then 1 else 0 := by
  unfold verdict
  cases m <;> simp <;> split <;> simp_all

end Sys2Proof.Machine
end

