-- ==== Sys2Proof/Tests/Slice0.lean ====
section
/-! SUPPORT. The model's own tests. Expected values are the spec's: 95_test_vectors.md (its vector or section
is named at each test), or a word written out cell by cell from R62 to R65. Then the witnesses: for every
obligation with hypotheses, a concrete case that meets all of them. -/

namespace Sys2Proof.Tests

open Sys2Proof.Machine

/-! ## Well-formedness: one ill-formed term for each check -/

theorem test_wellFormed_refuses_mfcrrweird_with_M : (Instr.mfcrrweird 4 2 15 15 true).wellFormed = false := by
  decide

theorem test_wellFormed_refuses_mfcrrweirdRc_with_M :
    (Instr.mfcrrweirdRc 4 2 15 15 true).wellFormed = false := by decide

theorem test_wellFormed_refuses_mcrfm_with_a_reserved_bit :
    (Instr.mcrfm 1 0 false 15 0 1).wellFormed = false ∧ (Instr.mcrfm 1 0 false 15 0 2).wellFormed = false := by
  decide

theorem test_wellFormed_accepts_every_operand_bit_set :
    (Instr.crrweirdRc 31 7 true 15 15).wellFormed = true ∧ (Instr.mcrfm 7 7 true 15 15 0).wellFormed = true := by
  decide

/-! ## Decoding: each constructor by a word written cell by cell (R62 to R65, numbers of R74). Every operand
has a value of its own and no two neighbouring cells look alike. -/

/-- R62: PO, RT = 17, M = 1, fmsk = 0b1010, BFA = 3, XOa = 0, fmap = 0b0110, XOb, Rc = 0. -/
theorem test_decode_crrweird :
    decodeWord .test 0b010110_10001_1_1010_011_000_0110_10110_0 = some (.crrweird 17 3 true 0b1010 0b0110) := by
  decide

/-- The same with Rc = 1. -/
theorem test_decode_crrweirdRc :
    decodeWord .test 0b010110_10001_1_1010_011_000_0110_10110_1 = some (.crrweirdRc 17 3 true 0b1010 0b0110) := by
  decide

/-- R62, bit 11 zero. -/
theorem test_decode_mfcrrweird :
    decodeWord .test 0b010110_10001_0_1010_011_001_0110_10110_0 =
      some (.mfcrrweird 17 3 0b1010 0b0110 false) := by decide

/-- R62 with Rc = 1, bit 11 one: recognised, with the reserved bit kept (R73). -/
theorem test_decode_mfcrrweirdRc :
    decodeWord .test 0b010110_10001_1_1010_011_001_0110_10110_1 =
      some (.mfcrrweirdRc 17 3 0b1010 0b0110 true) := by decide

/-- R63: PO, RA = 17, M, fmsk, BF = 3, XOa = 2, fmap, XOb of 6 bits. -/
theorem test_decode_mtcrrweird :
    decodeWord .test 0b010110_10001_1_1010_011_010_0110_101100 =
      some (.mtcrrweird 3 17 true 0b1010 0b0110) := by decide

theorem test_decode_mtcrweird :
    decodeWord .test 0b010110_10001_1_1010_011_011_0110_101100 =
      some (.mtcrweird 3 17 true 0b1010 0b0110) := by decide

/-- R65: PO, BF = 4, the blank cell 0b01, M, fmsk, BFA = 3, XOa = 4, fmap, XOb. -/
theorem test_decode_mcrfm :
    decodeWord .test 0b010110_100_01_1_1010_011_100_0110_101100 =
      some (.mcrfm 4 3 true 0b1010 0b0110 0b01) := by decide

/-- R64: PO, BT = 17, M, fmsk, BFA = 3, XOa = 5, fmap, XOb. -/
theorem test_decode_crweirder :
    decodeWord .test 0b010110_10001_1_1010_011_101_0110_101100 =
      some (.crweirder 17 3 true 0b1010 0b0110) := by decide

/-- 95 section 2.8: the words no row recognises. -/
theorem test_decode_rejects_what_no_row_matches :
    [0x60000000, 0x00000000, 0x5800182C, 0x5800002E, 0x5800082D, 0x4C000000].map (decodeWord .test) =
      [none, none, none, none, none, none] := by decide

/-- 95 section 2.8: every operand bit set, every operand bit clear. -/
theorem test_decode_extremes :
    decodeWord .test 0x5BFFE3ED = some (.crrweirdRc 31 7 true 15 15) ∧
      decodeWord .test 0x5800002C = some (.crrweird 0 0 false 0 0) := by decide

/-- 95 section 2: words of the vectors, encoded. -/
theorem test_encode_words_of_the_vectors :
    [Instr.crrweird 3 1 false 10 10, .crrweirdRc 0 5 true 0 15, .mfcrrweird 4 2 9 0 false,
      .mfcrrweirdRc 0 0 15 0 false, .mtcrrweird 3 6 true 12 15, .mtcrweird 3 6 true 2 0,
      .crweirder 31 1 true 5 4].map (encode .test) =
      [0x586A22AC, 0x5810A3ED, 0x5889442C, 0x580F042D, 0x58DC6BEC, 0x58D26C2C, 0x5BF5352C] := by decide

/-- 95 section 3.1: the first line's bytes in both orders (R43). -/
theorem test_bytes_in_both_orders :
    bytesOfWord .be 0x580F0D6C = [0x58, 0x0F, 0x0D, 0x6C] ∧ bytesOfWord .le 0x580F0D6C = [0x6C, 0x0D, 0x0F, 0x58] := by
  decide

theorem test_decodeBytes_rejects_short_and_illegal :
    decodeBytes Config.atReset [0x58, 0x0F, 0x0D] = .error .truncated ∧
      decodeBytes Config.atReset [0x60, 0, 0, 0] = .error (.illegalWord 0x60000000) := ⟨rfl, rfl⟩

/-- The host's entry point on a row's `match` value (R74). -/
theorem test_decodeTableWord : decodeTableWord 32 0x5800102C = some (.mcrfm 0 0 false 0 0 0) := by decide

/-! ## One step of each instruction, from the vectors of 95 section 2 -/

/-- Reset with a CR, `XER.SO` and one GPR set. -/
def given (cr : BitVec 32) (so : Bool) (r : GprNum) (v : Dword) : State :=
  { State.reset with cr := cr, xerSO := so, gpr := State.reset.gpr.set r v }

/-- After one step of the word: the CR and the named GPR. -/
def after (w : Nat) (r : GprNum) (s : State) : Option (BitVec 32 × Dword) :=
  match step (s.withFetchWord 32 w) with
  | .next t => some (t.cr, t.gpr[r])
  | .fault _ => none
  | .refused _ => none

/-- A5: no bit matches, "any" fails. -/
theorem test_crrweird_A5 : after 0x587F216C 3 (given 0x0A000000 false 3 0xDEADBEEFDEADBEEF) = some (0x0A000000, 0) := by
  decide

/-- A13: RT = 0 is an ordinary destination; all 64 bits are overwritten. -/
theorem test_crrweird_A13 : after 0x580F61AC 0 (given 0x00060000 true 0 0xDEADBEEFDEADBEEF) = some (0x00060000, 1) := by
  decide

/-- B4: BFA = 0, the old CR0 is read and then overwritten. -/
theorem test_crrweirdRc_B4 : after 0x586300ED 3 (given 0x30000000 false 3 0xDEADBEEFDEADBEEF) = some (0x40000000, 1) := by
  decide

/-- B6: `XER.SO` is copied. -/
theorem test_crrweirdRc_B6 : after 0x5860002D 3 (given 0xF0000000 true 3 0xDEADBEEFDEADBEEF) = some (0x50000000, 1) := by
  decide

/-- C3: the masked match word keeps its bit positions. -/
theorem test_mfcrrweird_C3 : after 0x588645AC 4 (given 0x00600000 false 4 0xDEADBEEFDEADBEEF) = some (0x00600000, 6) := by
  decide

/-- 95 section 2.3: M = 1 is refused, the word recorded. -/
theorem test_mfcrrweird_refused :
    step ((given 0x00600000 false 4 0).withFetchWord 32 0x589F47EC) =
      .refused (.reservedFieldNonZero 0x589F47EC) := rfl

/-- C8: result 0, EQ. -/
theorem test_mfcrrweirdRc_C8 : after 0x588947ED 4 (given 0x00600000 false 4 0xDEADBEEFDEADBEEF) = some (0x20600000, 0) := by
  decide

/-- C10: RT = 0 and BFA = 0. -/
theorem test_mfcrrweirdRc_C10 : after 0x580F042D 0 (given 0 true 0 0xDEADBEEFDEADBEEF) = some (0x50000000, 15) := by
  decide

/-- D5: merged and inverted. -/
theorem test_mtcrrweird_D5 :
    after 0x58DC682C 6 (given 0xFFFFFFFF false 6 0x123456789ABCDEF5) = some (0xFFFBFFFF, 0x123456789ABCDEF5) := by
  decide

/-- D8: RA = 0 reads as zero whatever `x[0]` holds. -/
theorem test_mtcrrweird_D8 :
    after 0x580F4BEC 0 (given 0x12345678 false 0 0xFFFFFFFFFFFFFFFF) = some (0x12045678, 0xFFFFFFFFFFFFFFFF) := by
  decide

/-- E2: only the least significant bit counts. -/
theorem test_mtcrweird_E2 : after 0x58CF6FEC 6 (given 0xFFFFFFFF false 6 2) = some (0xFFF0FFFF, 2) := by decide

/-- E8: one CR bit takes the register bit inverted. -/
theorem test_mtcrweird_E8 : after 0x58D26C2C 6 (given 0xFFFFFFFF false 6 1) = some (0xFFFDFFFF, 1) := by decide

/-- R122's example: `fmap` outside the mask inverts kept bits. -/
theorem test_mcrfm_R122 : after 0x589C10EC 0 (given 0xA5000000 false 0 0) = some (0xAA000000, 0) := by decide

/-- 95 section 1.4: copy inverted with M = 0 clears the rest. -/
theorem test_mcrfm_copy_inverted : after 0x5884112C 0 (given 0xA5000000 false 0 0) = some (0xA4000000, 0) := by
  decide

/-- H4: verdict 0 clears a bit inside the source field. -/
theorem test_crweirder_H4 : after 0x58CF362C 0 (given 0x0A000000 false 0 0) = some (0x08000000, 0) := by decide

/-- H6: M = 1, one match sets CR bit 63. -/
theorem test_crweirder_H6 : after 0x5BF5352C 0 (given 0xFA00000E false 0 0) = some (0xFA00000F, 0) := by decide

/-- 95 section 1.1: the three pseudo-ops. -/
theorem test_pseudo_ops_expand :
    encode .test (mtcri 5 0b1010) = 0x580FAD6C ∧ encode .test (mtcrset 5 0b0110) = 0x5816AC2C ∧
      encode .test (mtcrclr 5 0b0110) = 0x5816AFEC := by decide

/-! ## Stops of a step (R150, R151, R76, the end of a run) -/

theorem test_step_illegal :
    step (State.reset.withFetchWord 32 0x60000000) = .fault (.illegalInstruction 0x60000000 0) := rfl

theorem test_step_refuses_each_reserved_bit_of_mcrfm :
    step (State.reset.withFetchWord 32 0x58AF102C) = .refused (.reservedFieldNonZero 0x58AF102C) ∧
      step (State.reset.withFetchWord 32 0x58CF102C) = .refused (.reservedFieldNonZero 0x58CF102C) := ⟨rfl, rfl⟩

theorem test_step_past_the_text : step { State.reset with pc := 8 } = .fault (.fetchFault 8) := rfl

theorem test_step_of_a_finished_run : step State.reset = .refused .endOfRun := rfl

/-! ## The assembler and the vector loops -/

/-- 95 section 2.5, E6. -/
theorem test_assemble_mtcrweird :
    assemble ⟨false, .insn .mtcrweird, [.crField 3, .gpr 6, .num 1, .num 2, .num 15]⟩ =
      .instr (.mtcrweird 3 6 true 0b0010 0b1111) := by decide

/-- R83: `cr8` is outside the field. -/
theorem test_assemble_out_of_range :
    assemble ⟨false, .insn .mcrfm, [.crField 8, .crField 0, .num 0, .num 15, .num 0]⟩ = .badOperands := by decide

/-- The CR fields of 95 section 1.5. -/
def fields15 (k : Nat) : Nibble := [0b0010, 0b0100, 0b0011, 0b1000].getD k 0

/-- The inputs of 95 section 1.5. -/
def inputs15 : SvInputs where
  vl := 4
  rtIsvec := false
  rtElwidth := 0
  bbIsvec := true
  bbElwidth := 0
  mapreduce := true
  dm := none
  sm := none
  dz := false

/-- 95 section 1.5: the verdicts are 1, 0, 1, 0 at bits of value 1, 2, 4, 8. -/
theorem test_svCrrweird_example :
    (svCrrweird inputs15 3 0 false 0b0010 0b0010 fields15).toOption =
      some [⟨3, 63, 63, 1⟩, ⟨3, 62, 62, 0⟩, ⟨3, 61, 61, 1⟩, ⟨3, 60, 60, 0⟩] := by decide

/-- 95 section 1.5: the low 16 bits of RT are 0x8342. -/
theorem test_svMfcrrweird_example :
    (svMfcrrweird inputs15 3 0 15 15 fields15).toOption =
      some [⟨3, 60, 63, 2⟩, ⟨3, 56, 59, 4⟩, ⟨3, 52, 55, 3⟩, ⟨3, 48, 51, 8⟩] := by decide

/-- R140: `r10 = 0b00010`, `/dm=r10/dz`, BF = 8, RA = 0, `fmsk` 0b0011, `fmap` 0: CR8 is set to zero and CR9 to
0b0011. -/
theorem test_svMtcrweird_example :
    (svMtcrweird { inputs15 with vl := 2, dm := some 0b00010, dz := true } 8 0 false 0b0011 0 (fun _ => 0b1111)).toOption =
      some [⟨8, 0⟩, ⟨9, 0b0011⟩] := by decide

/-- R131: `{0b00:64, 0b01:8, 0b10:16, 0b11:32}`. -/
theorem test_destElwidthBits : [0, 1, 2, 3].map destElwidthBits = [64, 8, 16, 32] := by decide

/-! ## Witnesses: a concrete case for the hypotheses of each obligation -/

/-- A launch of one `crrweird` at the last word of the address space. -/
def atTheTop : State :=
  State.launch Config.atReset (BitVec.ofNat 64 (2 ^ 64 - 4)) [0x586A22AC] State.reset.gpr 0x0A000000 true

/-- 95 section 3.4, little-endian: `mtcri 7,15`, a word of no row, and `crrweird`. -/
def program4 : List InsnWord := [0x580FEC2C, 0x60000000, 0x586FE3EC]

def littleEndian : Config := { Config.atReset with insnByteOrder := .le }

def launch4 : State := State.launch littleEndian 0x1000 program4 State.reset.gpr 0 false

/-- The state of a run of `launch4` after its first instruction. -/
def launch4second : State := { launch4 with pc := 0x1004, cr := 0xF }

theorem witness_OpAssign_test_disjoint : OpAssign.test.Disjoint := by decide

/-- R68: a CW-Form number with bit 31 set that meets a CW2-Form record row is not disjoint from it. -/
theorem witness_DisjointIsNoWordMatchesTwoRows_fails :
    ¬ OpAssign.Disjoint { OpAssign.test with mtcrrweird := { po := 22, xoa := 0, xob := 0b101101 } } := by decide

theorem witness_DecodeInvertsEncode :
    OpAssign.test.Disjoint ∧ decodeWord .test (encode .test (.mcrfm 7 0 true 15 0 3)) = some (.mcrfm 7 0 true 15 0 3) := by
  decide

theorem witness_EncodeInvertsDecode :
    decodeWord .test 0x5BFFE3ED = some (.crrweirdRc 31 7 true 15 15) ∧
      encode .test (.crrweirdRc 31 7 true 15 15) = 0x5BFFE3ED := by decide

theorem witness_WordRecognisedExactlyByItsRow :
    OpAssign.test.Disjoint ∧ 0x5BFFE3ED#32 &&& 0xFC001C3F#32 = OpAssign.test.matchOf .crrweirdRc := by decide

theorem witness_DecodedOperandsAreTheFields :
    decodeWord .test 0x58EF102C = some (.mcrfm 1 0 false 15 0 3) ∧ sliceOf 0x58EF102C 23 3 = 1 ∧
      sliceOf 0x58EF102C 21 2 = 3 := by decide

theorem witness_StoredBytesDecodeInEitherOrder :
    littleEndian.opAssign.Disjoint ∧ Config.atReset.opAssign.Disjoint ∧
      decodeBytes littleEndian (encodeBytes littleEndian (mtcri 0 10) ++ [7]) = .ok (mtcri 0 10, [7]) :=
  ⟨by decide, by decide, rfl⟩

/-- Both byte orders, the second at the last word of the address space. -/
theorem witness_FetchAssemblesFourBytes :
    (launch4.inText = true ∧ launch4.AlignedPc ∧ launch4.cfg.insnByteOrder = .le ∧
      Memory.read launch4.mem 0x1000 = some 0x2C ∧ Memory.read launch4.mem 0x1001 = some 0xEC ∧
      Memory.read launch4.mem 0x1002 = some 0x0F ∧ Memory.read launch4.mem 0x1003 = some 0x58) ∧
    (atTheTop.inText = true ∧ atTheTop.AlignedPc ∧ atTheTop.cfg.insnByteOrder = .be ∧
      Memory.read atTheTop.mem (2 ^ 64 - 1) = some 0xAC) := by
  simp only [State.AlignedPc]; decide

theorem witness_PlacedWordIsFetchedNext :
    State.reset.AlignedPc ∧ atTheTop.AlignedPc ∧ (atTheTop.placeWord 0x60000000).fetchWord = some 0x60000000 := by
  simp only [State.AlignedPc]; decide

theorem witness_LaunchedTextReturnsItsWords :
    launch4second.mem = textImage launch4second.cfg.insnByteOrder launch4second.programBase.toNat program4 ∧
      launch4second.programLength = program4.length ∧ launch4second.programBase.toNat % 4 = 0 ∧
      launch4second.TextFits ∧ launch4second.pc.toNat = launch4second.programBase.toNat + 4 * 1 := by
  simp only [State.TextFits]; decide

theorem witness_StepRunsTheDecodedInstruction :
    launch4.fetchWord = some 0x580FEC2C ∧ decodeWord launch4.cfg.opAssign 0x580FEC2C = some (mtcri 7 15) := by decide

theorem witness_UnrecognisedWordIsIllegal :
    launch4second.fetchWord = some 0x60000000 ∧
      ∀ mn ∈ Mnemonic.all, 0x60000000#32 &&& 0xFC001C3F#32 ≠ launch4second.cfg.opAssign.matchOf mn := by decide

/-- Below the text, above its end, and, for a text that ends at 2^64, one word above the wrapped end. -/
theorem witness_FetchFaultOutsideTheTextNeverInALaunchedRun_first :
    step { launch4 with pc := 0xFFC } = .fault (.fetchFault 0xFFC) ∧
      step { launch4 with pc := 0x1010 } = .fault (.fetchFault 0x1010) ∧
      step { atTheTop with pc := 4 } = .fault (.fetchFault 4) := ⟨rfl, rfl, rfl⟩

theorem witness_FetchFaultOutsideTheTextNeverInALaunchedRun_second :
    (0x1000 : Dword).toNat % 4 = 0 ∧ (0x1000 : Dword).toNat + 4 * program4.length ≤ 2 ^ 64 ∧
      core.run 1 launch4 = .next launch4second :=
  ⟨by decide, by decide, rfl⟩

theorem witness_FetchFaultInAMappedTextShowsAPcOutside :
    let s := { launch4 with pc := 0x1010 }
    s.AlignedPc ∧ s.programBase.toNat % 4 = 0 ∧
      (∀ b, s.programBase.toNat ≤ b → b < s.programBase.toNat + 4 * s.programLength →
        (Memory.read s.mem b).isSome = true) ∧ step s = .fault (.fetchFault 0x1010) := by
  refine ⟨by simp only [State.AlignedPc]; decide, by decide, fun b h1 h2 => ?_, rfl⟩
  have h1 : 0x1000 ≤ b := h1
  have h2 : b < 0x1000 + 4 * 3 := h2
  interval_cases b <;> rfl

/-- At the end address, and at the wrapped end address of a text that ends at 2^64. -/
theorem witness_RunIsOverExactlyAtTheEndAddress :
    step { launch4 with pc := 0x100C } = .refused .endOfRun ∧ step { atTheTop with pc := 0 } = .refused .endOfRun ∧
      step { launch4 with pc := 0x1008 } ≠ .refused .endOfRun :=
  ⟨rfl, rfl, by intro h; cases h⟩

theorem witness_McrfmReservedBitsAreRefused :
    let s := State.reset.withFetchWord 32 0x58EF102C
    s.cfg.opAssign.Disjoint ∧ s.fetchWord = some 0x58EF102C ∧
      0x58EF102C#32 &&& 0xFC001C3F#32 = s.cfg.opAssign.matchOf .mcrfm ∧ sliceOf 0x58EF102C 21 2 ≠ 0 ∧
      assemble ⟨false, .insn .mcrfm, [.num 1, .num 0, .num 0, .num 15, .num 0]⟩ =
        .instr (.mcrfm 1 0 false 15 0 0) := by decide

theorem witness_MfcrrweirdMBitIsRefusedUnlessIgnored :
    let s := State.reset.withFetchWord 32 0x589F47ED
    s.cfg.opAssign.Disjoint ∧ s.fetchWord = some 0x589F47ED ∧
      0x589F47ED#32 &&& 0xFC001C3F#32 = s.cfg.opAssign.matchOf .mfcrrweirdRc ∧ sliceOf 0x589F47ED 20 1 = 1 ∧
      s.cfg.mfcrrweirdIgnoresM = false ∧
      assemble ⟨false, .insn .mfcrrweird, [.num 4, .num 2, .num 15, .num 15]⟩ =
        .instr (.mfcrrweird 4 2 15 15 false) ∧
      ({ Config.atReset with mfcrrweirdIgnoresM := true } : Config).mfcrrweirdIgnoresM = true := by decide

/-- Each way a step stops happens. -/
theorem witness_StepStopsOnlyAsListed :
    step { launch4 with pc := 0x1010 } = .fault (.fetchFault 0x1010) ∧
      step launch4second = .fault (.illegalInstruction 0x60000000 0x1004) ∧
      step State.reset = .refused .endOfRun ∧
      step (State.reset.withFetchWord 32 0x589F47EC) = .refused (.reservedFieldNonZero 0x589F47EC) :=
  ⟨rfl, rfl, rfl, rfl⟩

/-- `mfcrrweird[.]` goes on with M = 0, and with M = 1 under the switch; it is refused with M = 1 without. -/
theorem witness_Mfcrrweird_clauses :
    (∃ t, exec (.mfcrrweird 31 7 15 15 false) State.reset = .next t) ∧
      (∃ t, exec (.mfcrrweirdRc 31 7 15 15 true)
        { State.reset with cfg := { Config.atReset with mfcrrweirdIgnoresM := true } } = .next t) ∧
      (∃ w, exec (.mfcrrweirdRc 31 7 15 15 true) State.reset = .refused (.reservedFieldNonZero w)) :=
  ⟨⟨_, rfl⟩, ⟨_, rfl⟩, ⟨_, rfl⟩⟩

/-- `mcrfm` goes on with the blank cell zero and is refused with either of its bits set. -/
theorem witness_McrfmMovesTheMaskedField :
    (∃ t, exec (.mcrfm 7 7 true 15 15 0) State.reset = .next t) ∧
      (∃ w, exec (.mcrfm 7 7 true 15 15 1) State.reset = .refused (.reservedFieldNonZero w)) ∧
      (∃ w, exec (.mcrfm 7 7 true 15 15 2) State.reset = .refused (.reservedFieldNonZero w)) :=
  ⟨⟨_, rfl⟩, ⟨_, rfl⟩, ⟨_, rfl⟩⟩

/-- R28 at zero, at 15, and at the most negative value. -/
theorem witness_AnalyseIsTheRecordRule :
    analyse 0 true = 0b0011 ∧ analyse 15 false = 0b0100 ∧ analyse 0x8000000000000000 true = 0b1001 := by decide

/-- R25's example, and bit 37 of a CR in field 1 at position 1. -/
theorem witness_CrFieldsAndBitsAreTheirNumbers :
    (1 : CrFieldNum).val = (5 : CrBitNum).val / 4 ∧ crField 0xA5000000 0 = 0b1010 ∧ crField 0xA5000000 1 = 0b0101 ∧
      crBit 0xA5000000 5 = true := by decide

theorem witness_WellFormedInstructionsCompleteAndAdvance :
    (Instr.mcrfm 7 7 true 15 15 0).wellFormed = true ∧ (Instr.mfcrrweird 31 7 15 15 false).wellFormed = true := by
  decide

theorem witness_StepWritesAtMostOneGprAndOneField : step launch4 = .next launch4second := rfl

/-- R122's three premises: a bit in both masks, a bit in `fmap` alone, a bit in neither; and the two sides of
`fmap & ~fmsk = 0`. -/
theorem witness_McrfmProseHoldsExactlyInsideTheMask :
    (0b1000 : Nibble).getMsbD 0 = true ∧ (0b1001 : Nibble).getMsbD 3 = true ∧ (0b1000 : Nibble).getMsbD 3 = false ∧
      (0b1000 : Nibble) &&& ~~~(0b1000 : Nibble) = 0 ∧ (0b1001 : Nibble) &&& ~~~(0b1000 : Nibble) ≠ 0 ∧
      (∃ t, exec (.mcrfm 1 0 true 0b1000 0b1001 0) State.reset = .next t) :=
  ⟨by decide, by decide, by decide, by decide, by decide, ⟨_, rfl⟩⟩

/-- RA = 0; and a register that differs above the bits read. -/
theorem witness_CrWritersReadNoOtherGprBits :
    ((0 : GprNum) = 0 ∨ State.reset.gpr[(0 : GprNum)].toNat % 16 = 1) ∧
      State.reset.gpr[(31 : GprNum)].toNat % 16 = (State.reset.gpr.set 31 0x10)[(31 : GprNum)].toNat % 16 ∧
      State.reset.gpr[(31 : GprNum)].toNat % 2 = (State.reset.gpr.set 31 2)[(31 : GprNum)].toNat % 2 := by decide

theorem witness_OverwriteDoesNotReadTheField : (7 : CrFieldNum) ≠ 0 := by decide

theorem witness_StepKeepsTheInvariant : launch4.Inv ∧ step launch4 = .next launch4second :=
  ⟨{ memWf := by decide
     alignedPc := by simp only [State.AlignedPc]; decide
     alignedBase := by decide
     textFits := by simp only [State.TextFits]; decide
     textMapped := fun a h1 h2 => by
       have h1 : 0x1000 ≤ a := h1
       have h2 : a < 0x1000 + 4 * 3 := h2
       interval_cases a <;> rfl
     pcInRun := .inl (by decide) }, rfl⟩

/-- The last text that fits, and the empty one. -/
theorem witness_LaunchMeetsThePremises :
    Config.atReset.opAssign.Disjoint ∧ (BitVec.ofNat 64 (2 ^ 64 - 4)).toNat % 4 = 0 ∧
      (BitVec.ofNat 64 (2 ^ 64 - 4)).toNat + 4 * [0x586A22AC#32].length ≤ 2 ^ 64 ∧
      (0 : Dword).toNat + 4 * ([] : List InsnWord).length ≤ 2 ^ 64 := by decide

theorem witness_RunIsStraightLineAndKeepsTheText : core.run 1 launch4 = .next launch4second := rfl

/-- The first and last lines of program 4, run without the word between them. -/
theorem witness_LaunchedProgramReachesItsEnd :
    (0x1000 : Dword).toNat % 4 = 0 ∧ (0x1000 : Dword).toNat + 4 * 2 ≤ 2 ^ 64 ∧
      ∀ w ∈ [0x580FEC2C#32, 0x586FE3EC#32], Runnable littleEndian w := by
  refine ⟨by decide, by decide, fun w hw => ?_⟩
  rcases List.mem_cons.mp hw with rfl | hw
  · exact ⟨mtcri 7 15, by decide, rfl⟩
  · obtain rfl := List.mem_singleton.mp hw
    exact ⟨.crrweird 3 7 false 15 15, by decide, rfl⟩

/-- 95 section 3.4: word 0 is runnable and word 1 matches no row; the run stops at 0x1004. -/
theorem witness_LaunchedProgramStopsAtTheFirstIllegalWord :
    Runnable littleEndian program4[0] ∧
      (∀ mn ∈ Mnemonic.all, program4[1] &&& 0xFC001C3F#32 ≠ littleEndian.opAssign.matchOf mn) ∧
      core.run 3 launch4 = .fault (.illegalInstruction 0x60000000 0x1004) :=
  ⟨⟨mtcri 7 15, by decide, rfl⟩, by decide, rfl⟩

/-- Every field at its greatest value is accepted; and each one past it, in a line with one bad operand, is an
error: BF, BFA and `cr<n>` at 8, M at 2, the masks at 16, RT, RA, BT and `r<n>` at 32. -/
theorem witness_AssemblerRejectsBadLines :
    assemble ⟨true, .insn .crweirder, []⟩ = .refused .svp64NotModelled ∧
      List.Forall₂ AsmField.Admits (AsmName.insn .crweirder).fields [.num 31, .num 7, .num 1, .num 15, .num 15] ∧
      ¬ List.Forall₂ AsmField.Admits (AsmName.insn .crweirder).fields [.num 31, .num 7, .num 15, .num 15] ∧
      assemble ⟨false, .insn .crweirder, [.num 31, .crField 7, .num 1, .num 15, .num 15]⟩ =
        .instr (.crweirder 31 7 true 15 15) := by
  refine ⟨by decide, ?_, ?_, by decide⟩
  · simp [AsmName.fields, AsmField.Admits, AsmField.size]
  · simp [AsmName.fields]

theorem witness_AssemblerRejectsBadLines_each_field :
    ([(AsmName.insn .crweirder, [AsmOperand.num 32, .num 7, .num 1, .num 15, .num 15]),
      (.insn .crweirder, [.num 31, .num 8, .num 1, .num 15, .num 15]),
      (.insn .crweirder, [.num 31, .num 7, .num 2, .num 15, .num 15]),
      (.insn .crweirder, [.num 31, .num 7, .num 1, .num 16, .num 15]),
      (.insn .crweirder, [.num 31, .num 7, .num 1, .num 15, .num 16]),
      (.insn .mcrfm, [.num 8, .num 7, .num 1, .num 15, .num 15]),
      (.insn .mcrfm, [.crField 7, .crField 8, .num 1, .num 15, .num 15]),
      (.insn .crrweird, [.gpr 32, .num 7, .num 1, .num 15, .num 15]),
      (.insn .mtcrrweird, [.num 7, .num 32, .num 1, .num 15, .num 15]),
      (.mtcri, [.num 7, .num 16])].map fun l => assemble ⟨false, l.1, l.2⟩) =
      List.replicate 10 .badOperands := by decide

theorem inputs15_settled (n : Nat) : SvSettled inputs15 n := ⟨rfl, fun _ _ => .inl rfl⟩

/-- A mask of which element 0 is out, zeroing; the same without zeroing; and a source mask. -/
def inputsMasked : SvInputs := { inputs15 with vl := 2, dm := some 0b10, dz := true }

theorem witness_SvSettled :
    SvSettled inputsMasked 2 ∧ SvMasked inputsMasked 0 ∧ ¬ SvMasked inputsMasked 1 ∧
      ¬ SvSettled { inputsMasked with dz := false } 2 ∧ ¬ SvSettled { inputsMasked with sm := some 0 } 2 := by
  refine ⟨⟨rfl, fun i hi => .inr ⟨by omega, .inr rfl⟩⟩, ⟨_, rfl, rfl⟩, ?_, ?_, ?_⟩
  · rintro ⟨d, hd, h⟩; cases hd; exact absurd h (by decide)
  · intro h
    obtain h | ⟨-, h | h⟩ := h.2 0 (by omega)
    · cases h
    · exact h ⟨_, rfl, rfl⟩
    · cases h
  · intro h; cases h.1

/-- The match word of element 2 of 95 section 1.5 under `fmsk` and `fmap` 0b0010. -/
theorem witness_SvMatch : SvMatch inputs15 fields15 0 2 0b0010 0b0010 0b0010 := by
  unfold SvMatch; decide

/-- 64 elements run and 65 are refused with map-reduce; without it both write element 0 alone; masked elements
write zero. -/
theorem witness_SvCrrweirdScalarWritesOneBitPerElement :
    inputs15.rtIsvec = false ∧
      (svCrrweird { inputs15 with vl := 65 } 3 0 false 2 2 fields15).toOption = none ∧
      ((svCrrweird { inputs15 with vl := 64 } 3 0 false 2 2 fields15).toOption.map List.length) = some 64 ∧
      ([64, 65].map fun vl =>
        (svCrrweird { inputs15 with vl := vl, mapreduce := false } 3 0 false 2 2 fields15).toOption) =
        [some [⟨3, 63, 63, 1⟩], some [⟨3, 63, 63, 1⟩]] ∧
      (svCrrweird inputsMasked 3 0 false 0 0 fields15).toOption = some [⟨3, 63, 63, 0⟩, ⟨3, 62, 62, 1⟩] ∧
      (svCrrweird { inputsMasked with dz := false } 3 0 false 0 0 fields15).toOption = none := by decide

/-- A vector RT packed by two; with a destination override, refused. -/
theorem witness_SvCrrweirdVectorPacksVerdicts :
    (svCrrweird { inputs15 with vl := 3, rtIsvec := true, bbElwidth := 1 } 3 0 false 2 2 fields15).toOption =
        some [⟨3, 0, 61, 0⟩, ⟨3, 63, 63, 1⟩, ⟨3, 0, 61, 0⟩, ⟨3, 62, 62, 0⟩, ⟨4, 0, 61, 0⟩, ⟨4, 63, 63, 1⟩] ∧
      (svCrrweird { inputs15 with rtIsvec := true, rtElwidth := 1 } 3 0 false 2 2 fields15).toOption = none := by
  decide

/-- A vector RT of the default width, packed by two; and one with an override, refused. -/
theorem witness_SvMfcrrweirdPacksNibbles :
    (svMfcrrweird { inputs15 with rtIsvec := true, bbElwidth := 1 } 3 0 15 15 fields15).toOption =
        some [⟨3, 60, 63, 2⟩, ⟨3, 56, 59, 4⟩, ⟨4, 60, 63, 3⟩, ⟨4, 56, 59, 8⟩] ∧
      (svMfcrrweird { inputs15 with rtIsvec := true, rtElwidth := 2 } 3 0 15 15 fields15).toOption = none := by
  decide

/-- 16 elements run and 17 are refused with map-reduce; without it both write element 0 alone. -/
theorem witness_SvMfcrrweirdScalarWritesOneNibblePerElement :
    (svMfcrrweird { inputs15 with vl := 17 } 3 0 15 15 fields15).toOption = none ∧
      ((svMfcrrweird { inputs15 with vl := 16 } 3 0 15 15 fields15).toOption.map List.length) = some 16 ∧
      ([16, 17].map fun vl =>
        (svMfcrrweird { inputs15 with vl := vl, mapreduce := false } 3 0 15 15 fields15).toOption) =
        [some [⟨3, 60, 63, 2⟩], some [⟨3, 60, 63, 2⟩]] := by decide

/-- RA other than 0 is refused; the settled case is the example above. -/
theorem witness_SvMtcrweirdCopiesThePredicate :
    (svMtcrweird inputsMasked 8 6 false 3 0 fields15).toOption = none ∧
      (svMtcrweird inputsMasked 8 0 true 3 0 (fun _ => 0b1000)).toOption = some [⟨8, 0⟩, ⟨9, 0b1011⟩] := by decide

/-- A step that goes on, a fault and a refusal, for the three premises. -/
theorem witness_NoStepReadsBaseIsaVersion :
    step launch4 = .next launch4second ∧ step launch4second = .fault (.illegalInstruction 0x60000000 0x1004) ∧
      step State.reset = .refused .endOfRun := ⟨rfl, rfl, rfl⟩

end Sys2Proof.Tests
end

section
/-! SUPPORT and PROOF. Noninterference of `BaseIsaVersion` (R6, 92_eei_decisions.md D1): an execution, and with it a
step, commutes with writing another version into the state. -/

namespace Sys2Proof.Machine

/-! ## The state under another version -/

/-- The state under another value of `BaseIsaVersion`. -/
def State.withBaseIsaVersion (s : State) (v : String) : State :=
  { s with cfg := { s.cfg with baseIsaVersion := v } }

/-- An answer with its next state, if it has one, passed through `f`; a fault or a refusal as it is. -/
def mapNext (f : State → State) : Result → Result
  | .next s    => .next (f s)
  | .fault r   => .fault r
  | .refused r => .refused r

section
variable (f : State → State)
@[simp] theorem mapNext_next (s : State) : mapNext f (.next s) = .next (f s) := rfl
@[simp] theorem mapNext_fault (r : Fault) : mapNext f (.fault r) = .fault r := rfl
@[simp] theorem mapNext_refused (r : Refusal) : mapNext f (.refused r) = .refused r := rfl
end

section
variable (s : State) (v : String)

/-! What a step reads before it executes. -/
@[simp] theorem withBaseIsaVersion_isFinal : (s.withBaseIsaVersion v).isFinal = s.isFinal := rfl
@[simp] theorem withBaseIsaVersion_fetchWord : (s.withBaseIsaVersion v).fetchWord = s.fetchWord := rfl
@[simp] theorem withBaseIsaVersion_opAssign : (s.withBaseIsaVersion v).cfg.opAssign = s.cfg.opAssign := rfl

/-! ## Execution and step -/

/-- Every meaning commutes with a change of version: the five without a reserved bit by computing, the three that
may refuse on either side of the test of their reserved bits, which is the same test. -/
theorem exec_withBaseIsaVersion (i : Instr) :
    exec i (s.withBaseIsaVersion v) = mapNext (·.withBaseIsaVersion v) (exec i s) := by
  cases i with
  | crrweird | crrweirdRc | mtcrrweird | mtcrweird | crweirder => rfl
  | mfcrrweird | mfcrrweirdRc | mcrfm =>
    simp only [exec, execMfcrrweird, execMfcrrweirdRc, execMcrfm, apply_ite (mapNext _)]
    rfl

theorem step_withBaseIsaVersion :
    step (s.withBaseIsaVersion v) = mapNext (·.withBaseIsaVersion v) (step s) := by
  unfold step
  rw [withBaseIsaVersion_isFinal, withBaseIsaVersion_fetchWord, withBaseIsaVersion_opAssign]
  by_cases hfinal : s.isFinal = true
  · rw [if_pos hfinal, if_pos hfinal, mapNext_refused]
  rw [if_neg hfinal, if_neg hfinal]
  cases s.fetchWord with
  | none => rfl
  | some w =>
    dsimp only
    cases decodeWord s.cfg.opAssign w with
    | none => rfl
    | some i => exact exec_withBaseIsaVersion s v i

end

/-- Settles O49: a step commutes with a change of version, so each of its three outcomes carries over. -/
theorem noStepReadsBaseIsaVersion : Obligations.NoStepReadsBaseIsaVersion := by
  intro s v other
  have hstep : step (other s) = mapNext other (step s) := step_withBaseIsaVersion s v
  refine ⟨fun t h => ?_, fun f h => ?_, fun r h => ?_⟩
  · rw [hstep, h, mapNext_next]
  · rw [hstep, h, mapNext_fault]
  · rw [hstep, h, mapNext_refused]

end Sys2Proof.Machine
end

section
/-! SUPPORT and PROOF. What every step keeps, and what a run of steps keeps (R23, R24, R29, R42, R52, R170). -/

namespace Sys2Proof.Machine

/-! ## Completion -/

/-- Refusing a reserved bit is the one way an execution does not go on, so a well-formed instruction completes. -/
theorem exec_completes {i : Instr} (h : i.wellFormed = true) (s : State) : ∃ t, exec i s = .next t := by
  cases i with
  | crrweird | crrweirdRc | mtcrrweird | mtcrweird | crweirder => exact ⟨_, rfl⟩
  | mfcrrweird rt bfa fmsk fmap rsvM =>
    obtain rfl : rsvM = false := by simpa [Instr.wellFormed] using h
    exact ⟨_, rfl⟩
  | mfcrrweirdRc rt bfa fmsk fmap rsvM =>
    obtain rfl : rsvM = false := by simpa [Instr.wellFormed] using h
    exact ⟨_, rfl⟩
  | mcrfm bf bfa m fmsk fmap rsv =>
    obtain rfl : rsv = 0 := by simpa [Instr.wellFormed] using h
    exact ⟨_, rfl⟩

/-- Settles O28: the instruction completes, and every completion advances. -/
theorem wellFormedInstructionsCompleteAndAdvance : Obligations.WellFormedInstructionsCompleteAndAdvance := by
  intro i s hwf
  obtain ⟨t, ht⟩ := exec_completes hwf s
  exact ⟨t, ht, (exec_next ht).toAdvanced⟩

/-! ## One step -/

/-- Everything a step that goes on can do to the state. -/
theorem step_effect {s t : State} (h : step s = .next t) : Effect s t := by
  obtain ⟨_, _, _, _, hexec⟩ := step_next h
  exact exec_next hexec

/-- A step goes on only from inside the text. -/
theorem inText_of_step_next {s t : State} (h : step s = .next t) : s.inText = true := by
  obtain ⟨_, _, hfetch, _, _⟩ := step_next h
  exact (fetchWord_some hfetch).1

/-- A GPR effect keeps the other 31 and leaves a value under 16; the CR effects keep all 32. -/
theorem Effect.gprs {s t : State} (h : Effect s t) :
    ∃ rt, GprsKeptBut rt s t ∧ (t.gpr[rt] = s.gpr[rt] ∨ t.gpr[rt].toNat < 16) := by
  cases h with
  | gpr rt v hv => exact ⟨rt, gprsKeptBut_writeGpr s rt v, .inr (by simpa using hv)⟩
  | gprRecord rt v hv => exact ⟨rt, gprsKeptBut_record s rt v, .inr (by simpa using hv)⟩
  | crField | crBit => exact ⟨0, fun _ _ => rfl, .inl rfl⟩

theorem crKeptOutside_writeCrBit (s : State) (j : CrBitNum) (b : Bool) (k : CrFieldNum) (hk : k.val = j.val / 4) :
    CrKeptOutside k s (s.writeCrBit j b).advancePc := fun q hq hn => by
  rw [advancePc_cr, writeCrBit_cr, crBitSet_getMsbD _ _ _ _ hq, if_neg (by omega)]

/-- Every effect writes inside one CR field: a record inside CR0, a CR bit inside the field it lies in (R17). -/
theorem Effect.crField_kept {s t : State} (h : Effect s t) : ∃ k, CrKeptOutside k s t := by
  cases h with
  | gpr => exact ⟨0, fun _ _ _ => rfl⟩
  | gprRecord rt v hv => exact ⟨0, (cr0Recorded_record s rt v hv).others⟩
  | crField k v => exact ⟨k, crKeptOutside_writeCrField s k v⟩
  | crBit j b => exact ⟨⟨j.val / 4, by omega⟩, crKeptOutside_writeCrBit s j b _ rfl⟩

/-- Settles O29, by the list of effects a step can have. -/
theorem stepWritesAtMostOneGprAndOneField : Obligations.StepWritesAtMostOneGprAndOneField := by
  intro s t h
  exact ⟨(step_effect h).gprs, (step_effect h).crField_kept⟩

/-! ## The invariant of a run -/

/-- In the text or at its end (R42): at an end that lies in the text, the first holds. -/
theorem inText_or_isFinal_iff {s : State} :
    s.inText = true ∨ s.isFinal = true ↔ s.inText = true ∨ s.pc = s.endAddress := by
  cases h : s.inText <;> simp [State.isFinal, h]

/-- The pc moves on by 4 modulo 2^64 (R24). -/
theorem pc_add_four_toNat {s t : State} (hpc : t.pc = s.pc + 4) : t.pc.toNat = (s.pc.toNat + 4) % 2 ^ 64 := by
  rw [hpc, BitVec.toNat_add]; rfl

/-- From an aligned pc in a text that fits, four bytes on is in the text or at its end. A text that ends at 2^64
ends at pc 0 (log entry 5), which is where the sum wraps to. -/
theorem inText_or_isFinal_of_pc_add_four {s t : State} (hin : s.inText = true) (hpcAligned : s.AlignedPc)
    (hbaseAligned : s.programBase.toNat % 4 = 0) (hfits : s.TextFits) (hpc : t.pc = s.pc + 4)
    (hbase : t.programBase = s.programBase) (hlen : t.programLength = s.programLength) :
    t.inText = true ∨ t.isFinal = true := by
  obtain ⟨hlow, hhigh⟩ := inText_iff.mp hin
  unfold State.AlignedPc at hpcAligned
  unfold State.TextFits at hfits
  have hpcNat := pc_add_four_toNat hpc
  have hendNat := endAddress_toNat t
  rw [hbase, hlen] at hendNat
  rw [inText_or_isFinal_iff, inText_iff, ← BitVec.toNat_inj, hbase, hlen]
  by_cases hlast : s.pc.toNat + 4 = s.programBase.toNat + 4 * s.programLength
  · right; rw [hpcNat, hendNat, hlast]
  · left; omega

/-- Settles O35: the effects of a step leave storage and the text alone, and it moves an aligned pc from inside
the text four bytes on. -/
theorem stepKeepsTheInvariant : Obligations.StepKeepsTheInvariant := by
  intro s t ⟨hwf, hpcAligned, hbaseAligned, hfits, hmapped, _⟩ h
  obtain ⟨hpc, _, hmem, hbase, hlen, _⟩ := (step_effect h).advanced
  have hin := inText_of_step_next h
  exact {
    memWf := by rw [hmem]; exact hwf
    alignedPc := by
      unfold State.AlignedPc at hpcAligned ⊢
      rw [pc_add_four_toNat hpc]; omega
    alignedBase := by rw [hbase]; exact hbaseAligned
    textFits := by unfold State.TextFits; rw [hbase, hlen]; exact hfits
    textMapped := by rw [hbase, hlen, hmem]; exact hmapped
    pcInRun := inText_or_isFinal_of_pc_add_four hin hpcAligned hbaseAligned hfits hpc hbase hlen }

/-- Every byte of a launched text is mapped. -/
theorem textImage_mapped (ord : ByteOrder) (words : List InsnWord) (base a : Nat) (hlow : base ≤ a)
    (hhigh : a < base + 4 * words.length) : (Memory.read (textImage ord base words) a).isSome = true := by
  have hsplit : a = base + 4 * ((a - base) / 4) + (a - base) % 4 := by omega
  rw [hsplit, read_textImage ord words base ((a - base) / 4) ((a - base) % 4) (by omega) (by omega)]
  rfl

/-- An admitted launch meets the invariant; one of no program is at its end at once (R42, R170). -/
theorem launch_inv (cfg : Config) (base : Dword) (words : List InsnWord) (gpr : Vector Dword 32) (cr : BitVec 32)
    (so : Bool) (haligned : base.toNat % 4 = 0) (hfits : base.toNat + 4 * words.length ≤ 2 ^ 64) :
    (State.launch cfg base words gpr cr so).Inv where
  memWf := wf_textImage _ _ _ hfits
  alignedPc := haligned
  alignedBase := haligned
  textFits := hfits
  textMapped := textImage_mapped _ _ _
  pcInRun := by
    rw [inText_or_isFinal_iff]
    cases words with
    | nil => right; simp [State.endAddress]
    | cons w ws => left; simp [inText_iff]

/-- Settles O37: the reset state is that launch by computation, and the launch of no program at address 0 is
admitted. -/
theorem resetIsAnAdmittedLaunch : Obligations.ResetIsAnAdmittedLaunch := by
  have hlaunch : State.reset = State.launch Config.atReset 0 [] (Vector.replicate 32 0) 0 false := rfl
  refine ⟨hlaunch, ?_⟩
  rw [hlaunch]
  exact launch_inv _ _ _ _ _ _ (by decide) (by decide)

/-! ## Runs -/

/-- Settles O38, by induction on the number of steps. -/
theorem runIsStraightLineAndKeepsTheText : Obligations.RunIsStraightLineAndKeepsTheText := by
  intro n
  induction n with
  | zero =>
    intro s t h
    obtain rfl := run_zero_next h
    simp
  | succ n ih =>
    intro s t h
    obtain ⟨u, hstep, hrun⟩ := run_succ_next h
    have hfirst := (step_effect hstep).toAdvanced
    obtain ⟨hpc, hso, hmem, hbase, hlen, hcfg⟩ := ih u t hrun
    refine ⟨?_, hso.trans hfirst.xerSO, fun a => (hmem a).trans (hfirst.memory a), hbase.trans hfirst.programBase,
      hlen.trans hfirst.programLength, hcfg.trans hfirst.cfg⟩
    calc t.pc = s.pc + 4 + BitVec.ofNat 64 (4 * n) := by rw [hpc, hfirst.pc]
      _ = s.pc + BitVec.ofNat 64 (4 * (n + 1)) := by
        rw [Nat.mul_succ, BitVec.ofNat_add, BitVec.add_assoc, BitVec.add_comm 4]; rfl

end Sys2Proof.Machine
end

section
/-! SUPPORT and PROOF. The Condition Register: its fields and bits as numbers (R17, R25), the record rule (R28), and
what the CR writers do not read (R15, R21, R27, R176). -/

namespace Sys2Proof.Machine

/-! ## Fields and bits -/

theorem crField_toNat (cr : BitVec 32) (k : CrFieldNum) :
    (crField cr k).toNat = cr.toNat / 2 ^ (28 - 4 * k.val) % 16 := by
  simp [crField, Nat.shiftRight_eq_div_pow]

theorem crBit_toNat (cr : BitVec 32) (j : CrBitNum) :
    (crBit cr j).toNat = cr.toNat / 2 ^ (31 - j.val) % 2 :=
  Nat.toNat_testBit _ _

/-- CR bit `32 + j` lies in field `j div 4` at position `j mod 4` (R25). -/
theorem crBit_eq_crField_getMsbD (cr : BitVec 32) {k : CrFieldNum} {j : CrBitNum} (h : k.val = j.val / 4) :
    crBit cr j = (crField cr k).getMsbD (j.val % 4) := by
  rw [crBit_eq_getMsbD, crField_getMsbD _ _ _ (Nat.mod_lt _ (by decide)), h, Nat.div_add_mod]

theorem crField_crFieldSet (cr : BitVec 32) (k l : CrFieldNum) (v : Nibble) :
    crField (crFieldSet cr k v) l = if l = k then v else crField cr l := by
  by_cases h : l = k
  · rw [if_pos h, h, crField_crFieldSet_same]
  · rw [if_neg h, crField_crFieldSet_other _ _ h]

theorem crBit_crBitSet (cr : BitVec 32) (i j : CrBitNum) (b : Bool) :
    crBit (crBitSet cr j b) i = if i = j then b else crBit cr i := by
  simp only [crBit_eq_getMsbD, crBitSet_getMsbD _ _ _ _ i.isLt, Fin.ext_iff]

/-- A field written twice holds the second value: the first is not read. -/
theorem crFieldSet_crFieldSet (cr : BitVec 32) (k : CrFieldNum) (v w : Nibble) :
    crFieldSet (crFieldSet cr k v) k w = crFieldSet cr k w := by
  refine cr_ext fun q hq => ?_
  simp only [crFieldSet_getMsbD _ _ _ _ hq]
  split <;> rfl

/-- Settles O27. -/
theorem crFieldsAndBitsAreTheirNumbers : Obligations.CrFieldsAndBitsAreTheirNumbers := by
  intro cr k l v i j b
  exact ⟨crField_toNat cr k, crBit_toNat cr j, crBit_eq_crField_getMsbD cr, crField_crFieldSet cr k l v,
    crBit_crBitSet cr i j b⟩

/-! ## The record rule -/

/-- Four bits put side by side, each on the more significant side of the next (R9). -/
theorem ofBools_getMsbD (a b c d : Bool) :
    let n := BitVec.ofBool a ++ BitVec.ofBool b ++ BitVec.ofBool c ++ BitVec.ofBool d
    n.getMsbD 0 = a ∧ n.getMsbD 1 = b ∧ n.getMsbD 2 = c ∧ n.getMsbD 3 = d := by
  revert a b c d; decide

section
variable (v : Dword) (so : Bool)

/-- Bits LT, GT, EQ and SO of `analyse`, most significant first (R26, R28). -/
theorem analyse_getMsbD :
    (analyse v so).getMsbD 0 = decide (v.toInt < 0) ∧ (analyse v so).getMsbD 1 = decide (0 < v.toInt) ∧
      (analyse v so).getMsbD 2 = decide (v.toInt = 0) ∧ (analyse v so).getMsbD 3 = so := by
  have heq : (v == 0) = decide (v.toInt = 0) := by
    rw [Bool.eq_iff_iff, beq_iff_eq, decide_eq_true_iff, ← BitVec.toInt_inj]; rfl
  rw [← heq]
  exact ofBools_getMsbD (v.slt 0) ((0#64).slt v) (v == 0) so

/-- A signed value is negative, positive or zero, and is one of them only. -/
theorem signs_exclusive (x : Int) :
    (decide (x < 0)).toNat + (decide (0 < x)).toNat + (decide (x = 0)).toNat = 1 := by
  rcases Int.lt_trichotomy x 0 with h | h | h
  · simp [h, Int.not_lt.mpr (Int.le_of_lt h), Int.ne_of_lt h]
  · simp [h]
  · simp [h, Int.not_lt.mpr (Int.le_of_lt h), Int.ne_of_gt h]

/-- The record of a value from 0 to 15 as a number: 2 for zero, 4 for any other, plus SO. -/
theorem analyse_toNat_of_lt_sixteen (h : v.toNat < 16) :
    (analyse v so).toNat = (if v.toNat = 0 then 2 else 4) + so.toNat := by
  have hzero : v = 0 ↔ v.toNat = 0 := by rw [← BitVec.toNat_inj]; rfl
  rw [analyse_of_lt_sixteen v so h]
  simp only [hzero]
  split <;> cases so <;> rfl

end

/-- Settles O26. -/
theorem analyseIsTheRecordRule : Obligations.AnalyseIsTheRecordRule := by
  intro v so
  obtain ⟨hlt, hgt, heq, hso⟩ := analyse_getMsbD v so
  refine ⟨hlt, hgt, heq, hso, ?_, analyse_toNat_of_lt_sixteen v so⟩
  rw [hlt, hgt, heq]
  exact signs_exclusive v.toInt

/-! ## What the CR writers do not read -/

/-- `(RA|0)` modulo `n` depends on `x[RA]` modulo `n` alone, and on no register when RA = 0 (R15). -/
theorem ra0_mod_congr {s u : State} {ra : GprNum} {n : Nat}
    (h : ra = 0 ∨ s.gpr[ra].toNat % n = u.gpr[ra].toNat % n) :
    (s.ra0 ra).toNat % n = (u.ra0 ra).toNat % n := by
  unfold State.ra0
  by_cases hra : ra = 0
  · rw [if_pos hra, if_pos hra]
  · rw [if_neg hra, if_neg hra]
    exact h.resolve_left hra

theorem lowNibble_congr {a b : Dword} (h : a.toNat % 16 = b.toNat % 16) : lowNibble a = lowNibble b :=
  BitVec.eq_of_toNat_eq (by simpa [lowNibble] using h)

theorem lowBitFourTimes_congr {a b : Dword} (h : a.toNat % 2 = b.toNat % 2) :
    lowBitFourTimes a = lowBitFourTimes b := by
  have hbit : a.getLsbD 0 = b.getLsbD 0 := by simp only [BitVec.getLsbD, Nat.testBit_zero, h]
  rw [lowBitFourTimes, lowBitFourTimes, hbit]

/-- Settles O32: the two register readers see the same low bits, and the other two compute from the CR alone. -/
theorem crWritersReadNoOtherGprBits : Obligations.CrWritersReadNoOtherGprBits := by
  intro s g bf bfa bt ra m fmsk fmap
  refine ⟨fun h => ⟨_, _, rfl, rfl, ?_⟩, fun h => ⟨_, _, rfl, rfl, ?_⟩, ⟨_, _, rfl, rfl, rfl⟩,
    ⟨_, _, rfl, rfl, rfl⟩⟩
  · rw [lowNibble_congr (ra0_mod_congr (u := { s with gpr := g }) h)]; rfl
  · rw [lowBitFourTimes_congr (ra0_mod_congr (u := { s with gpr := g }) h)]; rfl

section
variable (s : State) (v : Nibble) (bf : CrFieldNum)

/-- With M = 0 matching into a field does not read it: the field may hold anything before (R27, R176). -/
theorem matchIntoCrField_overwrites (creg fmsk fmap : Nibble) :
    ((s.writeCrField bf v).matchIntoCrField bf creg false fmsk fmap).cr =
      (s.matchIntoCrField bf creg false fmsk fmap).cr :=
  crFieldSet_crFieldSet s.cr bf v _

theorem readCrField_writeCrField_other {bfa : CrFieldNum} (h : bf ≠ bfa) :
    (s.writeCrField bf v).readCrField bfa = s.readCrField bfa :=
  crField_crFieldSet_other s.cr v h.symm

end

/-- Settles O33: each of the three writes field BF whole, from a source that the old BF is no part of. -/
theorem overwriteDoesNotReadTheField : Obligations.OverwriteDoesNotReadTheField := by
  intro s v bf bfa ra fmsk fmap
  refine ⟨⟨_, _, rfl, rfl, ?_⟩, ⟨_, _, rfl, rfl, ?_⟩, fun hne => ⟨_, _, rfl, rfl, ?_⟩⟩
  · exact (matchIntoCrField_overwrites s v bf _ fmsk fmap).symm
  · exact (matchIntoCrField_overwrites s v bf _ fmsk fmap).symm
  · rw [readCrField_writeCrField_other s v bf hne]
    exact (crFieldSet_crFieldSet s.cr bf v _).symm

end Sys2Proof.Machine
end

section
/-! SUPPORT and PROOF. An instruction's word and its bytes decode to it (R43, R60, R69, R71, R73). -/

namespace Sys2Proof

/-! ## The operands of a word made of cells (R69) -/

section
variable (po : BitVec 6) (a : BitVec 5) (m : BitVec 1) (fmsk : Nibble) (b xoa : BitVec 3) (fmap : Nibble)
  (e : BitVec 6)
@[simp] theorem field5_cells : field5 (cells po a m fmsk b xoa fmap e) = a.toFin := by rw [field5, cells_field5]
@[simp] theorem field3_cells : field3 (cells po a m fmsk b xoa fmap e) = b.toFin := by rw [field3, cells_field3]
@[simp] theorem fieldM_cells : fieldM (cells po a m fmsk b xoa fmap e) = m.getLsbD 0 := cells_fieldM ..
@[simp] theorem fieldFmsk_cells : fieldFmsk (cells po a m fmsk b xoa fmap e) = fmsk := cells_fieldFmsk ..
@[simp] theorem fieldFmap_cells : fieldFmap (cells po a m fmsk b xoa fmap e) = fmap := cells_fieldFmap ..
end

section
variable (po : BitVec 6) (bf : CrFieldNum) (rsv : BitVec 2) (m : BitVec 1) (fmsk : Nibble) (b xoa : BitVec 3)
  (fmap : Nibble) (e : BitVec 6)
@[simp] theorem fieldBF_cells : fieldBF (cells po (bfCells bf rsv) m fmsk b xoa fmap e) = bf := by
  rw [fieldBF, cells_fieldBF, bfCells_bf]
@[simp] theorem fieldRsv_cells : fieldRsv (cells po (bfCells bf rsv) m fmsk b xoa fmap e) = rsv := by
  rw [fieldRsv, cells_fieldRsv, bfCells_rsv]
end

/-! ## Words -/

/-- The encoder writes the fixed bits of the instruction's row (R73). -/
theorem encode_and_mask (A : OpAssign) (i : Instr) : encode A i &&& opcodeMask = A.matchOf i.mnemonic := by
  cases i with
  | crrweird | crrweirdRc | mfcrrweird | mfcrrweirdRc => exact Laws.MatchBits.of_cw2 ..
  | mtcrrweird | mtcrweird | crweirder => exact Laws.MatchBits.of_cw ..
  | mcrfm => exact Laws.MatchBits.of_cwField ..

/-- Read by its own row, an encoded instruction's word has the instruction's operands (R69, R71). -/
theorem instrOfRow_encode (A : OpAssign) (i : Instr) : instrOfRow i.mnemonic (encode A i) = i := by
  cases i with
  | crrweird | crrweirdRc | mfcrrweird | mfcrrweirdRc =>
    simp [encode, Instr.mnemonic, instrOfRow, cw2Word_eq_cells]
  | mtcrrweird | mtcrweird | crweirder => simp [encode, Instr.mnemonic, instrOfRow, cwWord_eq_cells]
  | mcrfm => simp [encode, Instr.mnemonic, instrOfRow, cwFieldWord_eq_cells]

/-- An encoded instruction is recognised by its row and read back (R71, R73). -/
theorem decodeWord_encode {A : OpAssign} (hA : A.Disjoint) (i : Instr) : decodeWord A (encode A i) = some i := by
  rw [decodeWord, rowOf_of_match hA (encode_and_mask A i), Option.map_some, instrOfRow_encode]

/-! ## Bytes -/

/-- The bytes of a word that decodes are taken off the stream, in either order (R43, R60). -/
theorem decodeBytes_bytesOfWord {cfg : Config} {w : InsnWord} {i : Instr} (h : decodeWord cfg.opAssign w = some i)
    (rest : List Byte) : decodeBytes cfg (bytesOfWord cfg.insnByteOrder w ++ rest) = .ok (i, rest) := by
  simp only [bytesOfWord, List.cons_append, List.nil_append, decodeBytes, wordOfBytes_byteOfWord, h]

/-- Settles O6: the bytes make the encoded word, which decodes to its instruction. -/
theorem storedBytesDecodeInEitherOrder : Obligations.StoredBytesDecodeInEitherOrder := by
  intro cfg hdisjoint i rest
  exact decodeBytes_bytesOfWord (decodeWord_encode hdisjoint i) rest

end Sys2Proof
end

section
/-! SUPPORT and PROOF. The program text: what a fetch returns, the load of a word, and the launched program
(R40 to R44, R52, R170). -/

namespace Sys2Proof.Machine

/-! ## Fetch -/

/-- At an aligned pc in the text the four bytes from the pc up make the word (R43). -/
theorem fetchWord_of_read {s : State} {b0 b1 b2 b3 : Byte} (hin : s.inText = true) (haligned : s.AlignedPc)
    (h0 : Memory.read s.mem s.pc.toNat = some b0) (h1 : Memory.read s.mem (s.pc.toNat + 1) = some b1)
    (h2 : Memory.read s.mem (s.pc.toNat + 2) = some b2) (h3 : Memory.read s.mem (s.pc.toNat + 3) = some b3) :
    s.fetchWord = some (wordOfBytes s.cfg.insnByteOrder b0 b1 b2 b3) := by
  unfold State.AlignedPc at haligned
  have hbyte : ∀ k < 4, s.fetchByte k = Memory.read s.mem (s.pc.toNat + k) := fun _ => fetchByte_aligned haligned
  simp [State.fetchWord, hin, haligned, hbyte, h0, h1, h2, h3]

/-- A word whose own bytes stand at the pc is the word fetched, in either byte order (R43). -/
theorem fetchWord_of_read_byteOfWord {s : State} {w : InsnWord} (hin : s.inText = true) (haligned : s.AlignedPc)
    (h : ∀ k < 4, Memory.read s.mem (s.pc.toNat + k) = some (byteOfWord s.cfg.insnByteOrder w k)) :
    s.fetchWord = some w := by
  rw [fetchWord_of_read hin haligned (h 0 (by decide)) (h 1 (by decide)) (h 2 (by decide)) (h 3 (by decide)),
    wordOfBytes_byteOfWord]

theorem wordOfBytes_be_toNat (b0 b1 b2 b3 : Byte) :
    (wordOfBytes .be b0 b1 b2 b3).toNat = b0.toNat * 2 ^ 24 + b1.toNat * 2 ^ 16 + b2.toNat * 2 ^ 8 + b3.toNat :=
  cells_bytes_toNat b0 b1 b2 b3

theorem wordOfBytes_le_toNat (b0 b1 b2 b3 : Byte) :
    (wordOfBytes .le b0 b1 b2 b3).toNat = b3.toNat * 2 ^ 24 + b2.toNat * 2 ^ 16 + b1.toNat * 2 ^ 8 + b0.toNat :=
  cells_bytes_toNat b3 b2 b1 b0

/-- Settles O8: the word fetched is a sum in either order, and a step keeps the parameters. -/
theorem fetchAssemblesFourBytes : Obligations.FetchAssemblesFourBytes := by
  intro s b0 b1 b2 b3 hin haligned h0 h1 h2 h3
  refine ⟨_, fetchWord_of_read hin haligned h0 h1 h2 h3, fun hbe => ?_, fun hle => ?_, fun t hstep => ?_⟩
  · rw [hbe, wordOfBytes_be_toNat]
  · rw [hle, wordOfBytes_le_toNat]
  · rw [(step_effect hstep).toAdvanced.cfg]

/-! ## The load of one word (log entry 4) -/

section
variable (s : State) (w : InsnWord)

/-- The load, with its two cases in the text's base and length alone. -/
theorem placeWord_eq : s.placeWord w = { s with
    mem := s.placeByte w 3 (s.placeByte w 2 (s.placeByte w 1 (s.placeByte w 0 s.mem)))
    programBase := if s.inText then s.programBase else s.pc
    programLength := if s.inText then s.programLength else 1 } := by
  unfold State.placeWord
  split <;> rfl

@[simp] theorem placeWord_gpr : (s.placeWord w).gpr = s.gpr := by rw [placeWord_eq]
@[simp] theorem placeWord_pc : (s.placeWord w).pc = s.pc := by rw [placeWord_eq]
@[simp] theorem placeWord_cr : (s.placeWord w).cr = s.cr := by rw [placeWord_eq]
@[simp] theorem placeWord_xerSO : (s.placeWord w).xerSO = s.xerSO := by rw [placeWord_eq]
@[simp] theorem placeWord_cfg : (s.placeWord w).cfg = s.cfg := by rw [placeWord_eq]

/-- After a load the pc is in the text: it was, or the text is now the one word at the pc. -/
theorem placeWord_inText : (s.placeWord w).inText = true := by
  rw [inText_iff, placeWord_eq]
  cases h : s.inText with
  | true => simpa using inText_iff.mp h
  | false => simp

variable {s}

/-- A byte placed at offset `k` from an aligned pc stands at the next address up: no wrap. -/
theorem read_placeByte (haligned : s.AlignedPc) {k : Nat} (hk : k < 4) (m : Memory) (a : Nat) :
    Memory.read (s.placeByte w k m) a =
      if a = s.pc.toNat + k then some (byteOfWord s.cfg.insnByteOrder w k) else Memory.read m a := by
  unfold State.AlignedPc at haligned
  have := s.pc.isLt
  have haddr : (s.pc + BitVec.ofNat 64 k).toNat = s.pc.toNat + k := by
    rw [BitVec.toNat_add, BitVec.toNat_ofNat]; omega
  rw [State.placeByte, read_write, haddr]

theorem read_placeWord_offset (haligned : s.AlignedPc) {k : Nat} (hk : k < 4) :
    Memory.read (s.placeWord w).mem (s.pc.toNat + k) = some (byteOfWord s.cfg.insnByteOrder w k) := by
  rw [placeWord_eq]
  obtain rfl | rfl | rfl | rfl : k = 0 ∨ k = 1 ∨ k = 2 ∨ k = 3 := by omega
  all_goals simp [read_placeByte w haligned]

theorem read_placeWord_outside (haligned : s.AlignedPc) {a : Nat} (ha : a < s.pc.toNat ∨ s.pc.toNat + 4 ≤ a) :
    Memory.read (s.placeWord w).mem a = Memory.read s.mem a := by
  have hkept : ∀ k < 4, ∀ m, Memory.read (s.placeByte w k m) a = Memory.read m a := fun k hk m => by
    rw [read_placeByte w haligned hk, if_neg (by omega)]
  simp [placeWord_eq, hkept]

end

/-- Settles O9. -/
theorem placedWordIsFetchedNext : Obligations.PlacedWordIsFetchedNext := by
  intro s w haligned
  refine ⟨?_, placeWord_gpr s w, placeWord_cr s w, placeWord_xerSO s w, placeWord_pc s w, placeWord_cfg s w,
    fun a ha => read_placeWord_outside w haligned ha⟩
  refine fetchWord_of_read_byteOfWord (placeWord_inText s w) ?_ fun k hk => ?_
  · unfold State.AlignedPc; rwa [placeWord_pc]
  · rw [placeWord_pc, placeWord_cfg, read_placeWord_offset w haligned hk]

/-! ## The text of a launch -/

/-- Settles O10: byte `k` of word `n` of the text stands at offset `k` from the pc. -/
theorem launchedTextReturnsItsWords : Obligations.LaunchedTextReturnsItsWords := by
  intro s words n hn hmem hlen hbase _ hpc
  refine fetchWord_of_read_byteOfWord ?_ ?_ fun k hk => ?_
  · rw [inText_iff]; omega
  · unfold State.AlignedPc; omega
  · rw [hmem, hpc, read_textImage _ _ _ _ _ hn hk]

/-! ## The end of a run -/

/-- The run is over at a pc outside the text that is the end address modulo 2^64 (R42; log entry 5). -/
theorem isFinal_iff {s : State} : s.isFinal = true ↔
    (s.pc.toNat < s.programBase.toNat ∨ s.programBase.toNat + 4 * s.programLength ≤ s.pc.toNat) ∧
      s.pc.toNat = (s.programBase.toNat + 4 * s.programLength) % 2 ^ 64 := by
  have houtside : s.inText = false ↔
      s.pc.toNat < s.programBase.toNat ∨ s.programBase.toNat + 4 * s.programLength ≤ s.pc.toNat := by
    rw [← Bool.not_eq_true, inText_iff]; omega
  rw [State.isFinal, Bool.and_eq_true, Bool.not_eq_true', beq_iff_eq, houtside, ← BitVec.toNat_inj,
    endAddress_toNat]

/-- An execution that is refused is refused for a reserved bit, with the word of the instruction (R76, R77). -/
theorem exec_refused {i : Instr} {s : State} {r : Refusal} (h : exec i s = .refused r) :
    i.wellFormed = false ∧ r = .reservedFieldNonZero (encode s.cfg.opAssign i) := by
  constructor
  · by_contra hwf
    obtain ⟨t, ht⟩ := exec_completes (by simpa using hwf) s
    rw [ht] at h; cases h
  · cases i with
    | crrweird | crrweirdRc | mtcrrweird | mtcrweird | crweirder => cases h
    | mfcrrweird | mfcrrweirdRc | mcrfm =>
      simp only [exec, execMfcrrweird, execMfcrrweirdRc, execMcrfm, refuseReserved] at h
      split at h
      · exact (Host.Outcome.refused.inj h).symm
      · cases h

theorem step_eq_endOfRun_iff {s : State} : step s = .refused .endOfRun ↔ s.isFinal = true := by
  unfold step
  split
  case isTrue hfinal => simp [hfinal]
  case isFalse hfinal =>
    refine ⟨fun h => ?_, fun h => absurd h hfinal⟩
    split at h
    · cases h
    · split at h
      · cases h
      · cases (exec_refused h).2

/-- Settles O14. -/
theorem runIsOverExactlyAtTheEndAddress : Obligations.RunIsOverExactlyAtTheEndAddress := by
  intro s
  rw [step_eq_endOfRun_iff, isFinal_iff]

/-! ## A run of a launched program -/

/-- When the word at the pc decodes, the step is the instruction's execution (R155). -/
theorem step_eq_exec {s : State} {w : InsnWord} {i : Instr} (hfetch : s.fetchWord = some w)
    (hdecode : decodeWord s.cfg.opAssign w = some i) : step s = exec i s := by
  simp [step, isFinal_of_inText (fetchWord_some hfetch).1, hfetch, hdecode]

/-- The state holds the text of an admitted launch of `words`, and its pc is at word `n`, or, for `n` the number of
words, at the end address modulo 2^64 (R42). -/
structure AtWord (words : List InsnWord) (n : Nat) (s : State) : Prop where
  mem : s.mem = textImage s.cfg.insnByteOrder s.programBase.toNat words
  length : s.programLength = words.length
  alignedBase : s.programBase.toNat % 4 = 0
  textFits : s.TextFits
  pc : s.pc = s.programBase + BitVec.ofNat 64 (4 * n)

theorem launch_atWord (cfg : Config) (base : Dword) (words : List InsnWord) (gpr : Vector Dword 32) (cr : BitVec 32)
    (so : Bool) (haligned : base.toNat % 4 = 0) (hfits : base.toNat + 4 * words.length ≤ 2 ^ 64) :
    AtWord words 0 (State.launch cfg base words gpr cr so) where
  mem := rfl
  length := rfl
  alignedBase := haligned
  textFits := hfits
  pc := by simp

section
variable {words : List InsnWord} {n : Nat} {s : State}

theorem AtWord.pc_toNat (h : AtWord words n s) : s.pc.toNat = (s.programBase.toNat + 4 * n) % 2 ^ 64 := by
  rw [h.pc, BitVec.toNat_add, BitVec.toNat_ofNat, Nat.add_mod_mod]

/-- A fetch at word `n` returns it. -/
theorem AtWord.fetchWord (h : AtWord words n s) (hn : n < words.length) : s.fetchWord = some words[n] := by
  have hfits : s.programBase.toNat + 4 * s.programLength ≤ 2 ^ 64 := h.textFits
  have hlen := h.length
  have hpc : s.pc.toNat = s.programBase.toNat + 4 * n := by
    rw [h.pc_toNat, Nat.mod_eq_of_lt (by omega)]
  exact launchedTextReturnsItsWords s words n hn h.mem h.length h.alignedBase h.textFits hpc

/-- A step goes on to the next word and keeps the text. -/
theorem AtWord.of_step {t : State} (h : AtWord words n s) (hstep : step s = .next t) : AtWord words (n + 1) t := by
  obtain ⟨hpc, _, hmem, hbase, hlen, hcfg⟩ := (step_effect hstep).advanced
  exact {
    mem := by rw [hmem, hbase, hcfg]; exact h.mem
    length := hlen.trans h.length
    alignedBase := by rw [hbase]; exact h.alignedBase
    textFits := by unfold State.TextFits; rw [hbase, hlen]; exact h.textFits
    pc := by rw [hpc, hbase, h.pc, Nat.mul_succ, BitVec.ofNat_add, BitVec.add_assoc]; rfl }

/-- At a runnable word the step goes on. -/
theorem AtWord.step_of_runnable (h : AtWord words n s) (hn : n < words.length) (hrun : Runnable s.cfg words[n]) :
    ∃ t, step s = .next t := by
  obtain ⟨i, hdecode, hwf⟩ := hrun
  rw [step_eq_exec (h.fetchWord hn) hdecode]
  exact exec_completes hwf s

/-- A run goes on through as many words as are runnable, one a step. -/
theorem AtWord.run_of_runnable (k : Nat) (h : AtWord words n s) (hk : n + k ≤ words.length)
    (hrun : ∀ (j : Nat) (hj : j < n + k), n ≤ j → Runnable s.cfg (words[j]'(Nat.lt_of_lt_of_le hj hk))) :
    ∃ t, core.run k s = .next t ∧ AtWord words (n + k) t ∧ t.cfg = s.cfg := by
  induction k generalizing n s with
  | zero => exact ⟨s, rfl, h, rfl⟩
  | succ k ih =>
    obtain ⟨u, hstep⟩ := h.step_of_runnable (by omega) (hrun n (by omega) (Nat.le_refl n))
    have hcfg : u.cfg = s.cfg := (step_effect hstep).toAdvanced.cfg
    obtain ⟨t, htail, hat, htcfg⟩ := ih (h.of_step hstep) (by omega) fun j hj hnj => by
      rw [hcfg]; exact hrun j (by omega) (by omega)
    refine ⟨t, (run_of_next hstep k).trans htail, ?_, htcfg.trans hcfg⟩
    rwa [Nat.add_right_comm, Nat.add_assoc] at hat

/-- Past its last word the run is over, unless the text fills the address space, where the end address is in the
text (log entry 5). -/
theorem AtWord.isFinal_of_end (h : AtWord words words.length s) (hlen : words.length < 2 ^ 62) :
    s.isFinal = true := by
  have hfits : s.programBase.toNat + 4 * s.programLength ≤ 2 ^ 64 := h.textFits
  have hpc := h.pc_toNat
  rw [← h.length] at hpc hlen
  rw [isFinal_iff]
  refine ⟨?_, hpc⟩
  by_cases htop : s.programBase.toNat + 4 * s.programLength = 2 ^ 64
  · left; rw [hpc, htop, Nat.mod_self]; omega
  · right; rw [hpc, Nat.mod_eq_of_lt (by omega)]

end

/-- Settles O39: every word is runnable, so the run goes through them all, to the end address. -/
theorem launchedProgramReachesItsEnd : Obligations.LaunchedProgramReachesItsEnd := by
  intro cfg base words gpr cr so haligned hfits hlen hrunnable
  have hstart := launch_atWord cfg base words gpr cr so haligned hfits
  obtain ⟨t, hrun, hend, _⟩ := hstart.run_of_runnable words.length (by omega)
    fun j hj _ => hrunnable _ (List.getElem_mem _)
  rw [Nat.zero_add] at hend
  have hfinal := hend.isFinal_of_end hlen
  exact ⟨t, hrun, hfinal, step_eq_endOfRun_iff.mpr hfinal⟩

end Sys2Proof.Machine
end

section
/-! SUPPORT and PROOF. Words and instructions: decoding and encoding undo each other, a word is recognised by the
masked bits alone, and the operands are slices of the word (R62 to R65, R69, R71 to R74). -/

namespace Sys2Proof

/-- Settles O1. -/
theorem decodeInvertsEncode : Obligations.DecodeInvertsEncode := fun _ hdisjoint i => decodeWord_encode hdisjoint i

/-! ## The rows of the opcode map (R72, R73) -/

/-- A word with a row's `match` bits is decoded by that row. -/
theorem decodeWord_of_match {A : OpAssign} (hA : A.Disjoint) {w : InsnWord} {mn : Mnemonic}
    (h : w &&& opcodeMask = A.matchOf mn) : decodeWord A w = some (instrOfRow mn w) := by
  rw [decodeWord, rowOf_of_match hA h, Option.map_some]

/-- A word with no row's `match` bits is not decoded (R75). -/
theorem decodeWord_eq_none {A : OpAssign} {w : InsnWord} (h : ∀ mn, w &&& opcodeMask ≠ A.matchOf mn) :
    decodeWord A w = none := by
  rw [Option.eq_none_iff_forall_ne_some]
  intro i hi
  obtain ⟨mn, hmatch, _⟩ := decodeWord_some hi
  exact h mn hmatch

/-- Settles O3. -/
theorem wordRecognisedExactlyByItsRow : Obligations.WordRecognisedExactlyByItsRow := by
  intro A hdisjoint w mn
  constructor
  · rintro ⟨i, hdecode, rfl⟩
    obtain ⟨n, hmatch, rfl⟩ := decodeWord_some hdecode
    rw [instrOfRow_mnemonic]
    exact hmatch
  · intro hmatch
    exact ⟨_, decodeWord_of_match hdisjoint hmatch, instrOfRow_mnemonic mn w⟩

/-- Every row recognises some word: the one of any of its instructions. -/
theorem exists_and_mask_eq_matchOf (A : OpAssign) (mn : Mnemonic) : ∃ w, w &&& opcodeMask = A.matchOf mn :=
  ⟨encode A (instrOfRow mn 0), by rw [encode_and_mask, instrOfRow_mnemonic]⟩

/-- Settles O4: two rows with one `match` value would both match a word of either. -/
theorem disjointIsNoWordMatchesTwoRows : Obligations.DisjointIsNoWordMatchesTwoRows := by
  intro A
  constructor
  · intro hdisjoint w m n hm hn
    exact hdisjoint.matchOf_injective (hm.symm.trans hn)
  · intro hunique
    refine List.Nodup.map (fun m n heq => ?_) (by decide)
    obtain ⟨w, hw⟩ := exists_and_mask_eq_matchOf A m
    exact hunique w m n hw (hw.trans heq)

/-! ## Slices of a word (R69) -/

theorem extractLsb'_toNat_eq_sliceOf (w : InsnWord) (lo n : Nat) :
    (w.extractLsb' lo n).toNat = Machine.sliceOf w lo n := by
  rw [BitVec.extractLsb'_toNat, Nat.shiftRight_eq_div_pow, Machine.sliceOf]

/-- A slice inside the mask is a slice of the masked word. -/
theorem sliceOf_and_opcodeMask (w : InsnWord) {lo n : Nat}
    (h : opcodeMask.extractLsb' lo n = BitVec.allOnes n) :
    Machine.sliceOf (w &&& opcodeMask) lo n = Machine.sliceOf w lo n := by
  rw [← extractLsb'_toNat_eq_sliceOf, BitVec.extractLsb'_and, h, BitVec.and_allOnes, extractLsb'_toNat_eq_sliceOf]

/-- Two words that are equal from bit `lo + n` up and in the `n` bits below are equal from bit `lo` up. -/
theorem div_eq_of_sliceOf_eq {w v : InsnWord} (lo n : Nat) (hslice : Machine.sliceOf w lo n = Machine.sliceOf v lo n)
    (hhigh : w.toNat / 2 ^ (lo + n) = v.toNat / 2 ^ (lo + n)) : w.toNat / 2 ^ lo = v.toNat / 2 ^ lo := by
  rw [pow_add, ← Nat.div_div_eq_div_mul, ← Nat.div_div_eq_div_mul] at hhigh
  rw [← Nat.div_add_mod (w.toNat / 2 ^ lo) (2 ^ n), ← Nat.div_add_mod (v.toNat / 2 ^ lo) (2 ^ n), hhigh]
  exact congrArg _ hslice

/-- Bits 6:10 of `mcrfm` are BF, then the blank cell (R65). -/
theorem sliceOf_bits6to10 (w : InsnWord) :
    Machine.sliceOf w 21 5 = Machine.sliceOf w 23 3 * 4 + Machine.sliceOf w 21 2 := by
  unfold Machine.sliceOf
  omega

theorem field5_val (w : InsnWord) : (field5 w).val = Machine.sliceOf w 21 5 := extractLsb'_toNat_eq_sliceOf ..
theorem field3_val (w : InsnWord) : (field3 w).val = Machine.sliceOf w 13 3 := extractLsb'_toNat_eq_sliceOf ..
theorem fieldBF_val (w : InsnWord) : (fieldBF w).val = Machine.sliceOf w 23 3 := extractLsb'_toNat_eq_sliceOf ..
theorem fieldRsv_toNat (w : InsnWord) : (fieldRsv w).toNat = Machine.sliceOf w 21 2 := extractLsb'_toNat_eq_sliceOf ..
theorem fieldM_toNat (w : InsnWord) : (fieldM w).toNat = Machine.sliceOf w 20 1 := Nat.toNat_testBit _ _
theorem fieldFmsk_toNat (w : InsnWord) : (fieldFmsk w).toNat = Machine.sliceOf w 16 4 := extractLsb'_toNat_eq_sliceOf ..
theorem fieldFmap_toNat (w : InsnWord) : (fieldFmap w).toNat = Machine.sliceOf w 6 4 := extractLsb'_toNat_eq_sliceOf ..

/-! ## Decoded operands -/

/-- Rc is instruction bit 31 of a CW2-Form word, one of the bits its `match` value fixes (R62, R73). -/
theorem sliceOf_zero_of_cw2Match {o : Cw2Opcode} {rc : Bool} {w : InsnWord}
    (h : w &&& opcodeMask = cw2Match o rc) : Machine.sliceOf w 0 1 = rc.toNat := by
  have hbit : (cw2Match o rc).getLsbD 0 = rc := by simp [cw2Match]
  calc Machine.sliceOf w 0 1 = Machine.sliceOf (cw2Match o rc) 0 1 := by
        rw [← h, sliceOf_and_opcodeMask w (by decide)]
    _ = ((cw2Match o rc).getLsbD 0).toNat := (Nat.toNat_testBit _ _).symm
    _ = rc.toNat := by rw [hbit]

/-- The fields a CW2-Form row decodes are the word's. -/
theorem cw2Fields_of_match {o : Cw2Opcode} {rc : Bool} {w : InsnWord} (h : w &&& opcodeMask = cw2Match o rc) :
    Machine.Cw2Fields w (field5 w) (field3 w) (fieldM w) (fieldFmsk w) (fieldFmap w) rc.toNat :=
  ⟨field5_val w, field3_val w, fieldM_toNat w, fieldFmsk_toNat w, fieldFmap_toNat w,
    (sliceOf_zero_of_cw2Match h).symm⟩

/-- The operands a word's row reads are slices of the word. -/
theorem operandsAreFields_instrOfRow {A : OpAssign} {w : InsnWord} {mn : Mnemonic}
    (h : w &&& opcodeMask = A.matchOf mn) : Machine.OperandsAreFields w (instrOfRow mn w) := by
  cases mn with
  | crrweird | crrweirdRc | mfcrrweird | mfcrrweirdRc => exact cw2Fields_of_match h
  | mtcrrweird | mtcrweird | crweirder =>
    exact ⟨field5_val w, field3_val w, fieldM_toNat w, fieldFmsk_toNat w, fieldFmap_toNat w⟩
  | mcrfm =>
    exact ⟨fieldBF_val w, fieldRsv_toNat w, field3_val w, fieldM_toNat w, fieldFmsk_toNat w, fieldFmap_toNat w⟩

/-- Settles O5. -/
theorem decodedOperandsAreTheFields : Obligations.DecodedOperandsAreTheFields := by
  intro A w i hdecode
  obtain ⟨mn, hmatch, rfl⟩ := decodeWord_some hdecode
  exact operandsAreFields_instrOfRow hmatch

/-! ## A word from its instruction -/

/-- The five slices outside the mask are slices that an instruction's operands name. -/
theorem sliceOf_eq_of_operandsAreFields {w v : InsnWord} {i : Instr} (hw : Machine.OperandsAreFields w i)
    (hv : Machine.OperandsAreFields v i) :
    Machine.sliceOf w 21 5 = Machine.sliceOf v 21 5 ∧ Machine.sliceOf w 20 1 = Machine.sliceOf v 20 1 ∧
      Machine.sliceOf w 16 4 = Machine.sliceOf v 16 4 ∧ Machine.sliceOf w 13 3 = Machine.sliceOf v 13 3 ∧
      Machine.sliceOf w 6 4 = Machine.sliceOf v 6 4 := by
  cases i with
  | crrweird | crrweirdRc | mfcrrweird | mfcrrweirdRc =>
    obtain ⟨ha, hb, hm, hfmsk, hfmap, -⟩ := hw
    obtain ⟨ha', hb', hm', hfmsk', hfmap', -⟩ := hv
    exact ⟨ha.symm.trans ha', hm.symm.trans hm', hfmsk.symm.trans hfmsk', hb.symm.trans hb', hfmap.symm.trans hfmap'⟩
  | mtcrrweird | mtcrweird | crweirder =>
    obtain ⟨ha, hb, hm, hfmsk, hfmap⟩ := hw
    obtain ⟨ha', hb', hm', hfmsk', hfmap'⟩ := hv
    exact ⟨ha.symm.trans ha', hm.symm.trans hm', hfmsk.symm.trans hfmsk', hb.symm.trans hb', hfmap.symm.trans hfmap'⟩
  | mcrfm =>
    obtain ⟨hbf, hrsv, hb, hm, hfmsk, hfmap⟩ := hw
    obtain ⟨hbf', hrsv', hb', hm', hfmsk', hfmap'⟩ := hv
    rw [sliceOf_bits6to10 w, sliceOf_bits6to10 v, ← hbf, ← hbf', ← hrsv, ← hrsv']
    exact ⟨rfl, hm.symm.trans hm', hfmsk.symm.trans hfmsk', hb.symm.trans hb', hfmap.symm.trans hfmap'⟩

/-- Two words with one instruction's operands and the same masked bits are one word: the mask and the operands cover
all 32 bits. -/
theorem eq_of_operandsAreFields {w v : InsnWord} {i : Instr} (hw : Machine.OperandsAreFields w i)
    (hv : Machine.OperandsAreFields v i) (hmask : w &&& opcodeMask = v &&& opcodeMask) : w = v := by
  have hfixed {lo n : Nat} (h : opcodeMask.extractLsb' lo n = BitVec.allOnes n) :
      Machine.sliceOf w lo n = Machine.sliceOf v lo n := by
    rw [← sliceOf_and_opcodeMask w h, hmask, sliceOf_and_opcodeMask v h]
  obtain ⟨ha, hm, hfmsk, hb, hfmap⟩ := sliceOf_eq_of_operandsAreFields hw hv
  have h32 : w.toNat / 2 ^ 32 = v.toNat / 2 ^ 32 := by
    rw [Nat.div_eq_of_lt w.isLt, Nat.div_eq_of_lt v.isLt]
  have h20 : w.toNat / 2 ^ 20 = v.toNat / 2 ^ 20 :=
    div_eq_of_sliceOf_eq 20 1 hm <| div_eq_of_sliceOf_eq 21 5 ha <| div_eq_of_sliceOf_eq 26 6 (hfixed (by decide)) h32
  have h10 : w.toNat / 2 ^ 10 = v.toNat / 2 ^ 10 :=
    div_eq_of_sliceOf_eq 10 3 (hfixed (by decide)) <| div_eq_of_sliceOf_eq 13 3 hb <|
      div_eq_of_sliceOf_eq 16 4 hfmsk h20
  have h0 : w.toNat / 2 ^ 0 = v.toNat / 2 ^ 0 :=
    div_eq_of_sliceOf_eq 0 6 (hfixed (by decide)) <| div_eq_of_sliceOf_eq 6 4 hfmap h10
  exact BitVec.eq_of_toNat_eq (by simpa using h0)

/-- The instruction a word's row reads encodes to the word. -/
theorem encode_instrOfRow {A : OpAssign} {w : InsnWord} {mn : Mnemonic} (h : w &&& opcodeMask = A.matchOf mn) :
    encode A (instrOfRow mn w) = w := by
  have hmask : encode A (instrOfRow mn w) &&& opcodeMask = A.matchOf mn := by
    rw [encode_and_mask, instrOfRow_mnemonic]
  have hread : instrOfRow mn (encode A (instrOfRow mn w)) = instrOfRow mn w := by
    simpa only [instrOfRow_mnemonic] using instrOfRow_encode A (instrOfRow mn w)
  have hfields := operandsAreFields_instrOfRow hmask
  rw [hread] at hfields
  exact eq_of_operandsAreFields hfields (operandsAreFields_instrOfRow h) (hmask.trans h.symm)

/-- Settles O2. -/
theorem encodeInvertsDecode : Obligations.EncodeInvertsDecode := by
  intro A w i hdecode
  obtain ⟨mn, hmatch, rfl⟩ := decodeWord_some hdecode
  exact encode_instrOfRow hmatch

/-! ## The test-only opcode numbers (R74) -/

/-- Settles O7, by computing on the eight values and the four words. -/
theorem testAssignmentMatchValues : Obligations.TestAssignmentMatchValues :=
  ⟨rfl, by decide, by decide, by decide, by decide, by decide, by decide⟩

end Sys2Proof
end

section
/-! SUPPORT and PROOF. The assembler front end: the lines it accepts and the instructions it writes (R76, R77, R79 to
R85, R130). -/

namespace Sys2Proof.Machine

/-! ## Lines the assembler accepts -/

/-- Where each operand is one its field admits, each is read, and so is the list. -/
theorem assembleOperands_of_admits {name : AsmName} {ops : List AsmOperand}
    (h : List.Forall₂ AsmField.Admits name.fields ops) : ∃ i, assembleOperands name ops = some i := by
  cases name with
  | insn mn =>
    cases mn with
    | crrweird | crrweirdRc | mtcrrweird | mtcrweird | mcrfm | crweirder =>
      obtain _ | ⟨h1, _ | ⟨h2, _ | ⟨h3, _ | ⟨h4, _ | ⟨h5, _ | _⟩⟩⟩⟩⟩ := h
      simp only [← asGpr_isSome, ← asCrField_isSome, ← asCrBit_isSome, ← asM_isSome, ← asNibble_isSome,
        Option.isSome_iff_exists] at h1 h2 h3 h4 h5
      rcases h1, h2, h3, h4, h5 with ⟨⟨_, h1⟩, ⟨_, h2⟩, ⟨_, h3⟩, ⟨_, h4⟩, ⟨_, h5⟩⟩
      simp [assembleOperands, h1, h2, h3, h4, h5]
    | mfcrrweird | mfcrrweirdRc =>
      obtain _ | ⟨h1, _ | ⟨h2, _ | ⟨h3, _ | ⟨h4, _ | _⟩⟩⟩⟩ := h
      simp only [← asGpr_isSome, ← asCrField_isSome, ← asNibble_isSome, Option.isSome_iff_exists] at h1 h2 h3 h4
      rcases h1, h2, h3, h4 with ⟨⟨_, h1⟩, ⟨_, h2⟩, ⟨_, h3⟩, ⟨_, h4⟩⟩
      simp [assembleOperands, h1, h2, h3, h4]
  | mtcri | mtcrset | mtcrclr =>
    obtain _ | ⟨h1, _ | ⟨h2, _ | _⟩⟩ := h
    simp only [← asCrField_isSome, ← asNibble_isSome, Option.isSome_iff_exists] at h1 h2
    rcases h1, h2 with ⟨⟨_, h1⟩, ⟨_, h2⟩⟩
    simp [assembleOperands, h1, h2]

/-- Every operand of a list that is read is one its field admits, and the instruction's reserved bits are zero
(R76, R77). -/
theorem admits_and_wellFormed_of_assembleOperands {name : AsmName} {ops : List AsmOperand} {i : Instr}
    (h : assembleOperands name ops = some i) :
    List.Forall₂ AsmField.Admits name.fields ops ∧ i.wellFormed = true := by
  -- The cases are the rows of `assembleOperands`: of five operands, of four, the pseudo-ops of two, and every other line.
  revert h
  fun_cases assembleOperands name ops <;>
    simp only [AsmName.fields, List.forall₂_cons, List.Forall₂.nil, and_true, ← asGpr_isSome, ← asCrField_isSome,
      ← asCrBit_isSome, ← asM_isSome, ← asNibble_isSome, Option.isSome_iff_exists, Option.bind_eq_bind,
      Option.bind_eq_some_iff, Option.pure_def, Option.some.injEq]
  case case1 | case2 | case5 | case6 | case7 | case8 =>
    rintro ⟨a, ha, b, hb, c, hc, d, hd, e, he, rfl⟩
    exact ⟨⟨⟨a, ha⟩, ⟨b, hb⟩, ⟨c, hc⟩, ⟨d, hd⟩, ⟨e, he⟩⟩, rfl⟩
  case case3 | case4 =>
    rintro ⟨a, ha, b, hb, c, hc, d, hd, rfl⟩
    exact ⟨⟨⟨a, ha⟩, ⟨b, hb⟩, ⟨c, hc⟩, ⟨d, hd⟩⟩, rfl⟩
  case case9 | case10 | case11 =>
    rintro ⟨a, ha, b, hb, rfl⟩
    exact ⟨⟨⟨a, ha⟩, ⟨b, hb⟩⟩, rfl⟩
  case case12 => exact nofun

theorem assemble_of_svPrefix {l : AsmLine} (h : l.svPrefix = true) : assemble l = .refused .svp64NotModelled :=
  if_pos h

/-- A line gives the instruction its operand list reads as, and has no `sv.` before its mnemonic. -/
theorem assemble_eq_instr_iff {l : AsmLine} {i : Instr} :
    assemble l = .instr i ↔ l.svPrefix = false ∧ assembleOperands l.name l.operands = some i := by
  unfold assemble
  cases l.svPrefix <;> cases assembleOperands l.name l.operands <;> simp

/-- A line without `sv.` whose operand list is not read is an error. -/
theorem assemble_eq_badOperands {name : AsmName} {ops : List AsmOperand} (h : assembleOperands name ops = none) :
    assemble ⟨false, name, ops⟩ = .badOperands := by
  simp [assemble, h]

/-- Settles O41. -/
theorem assemblerRejectsBadLines : Obligations.AssemblerRejectsBadLines := by
  refine ⟨fun l => assemble_of_svPrefix, fun name ops => ⟨fun hadmits => ?_, fun hnot => ?_⟩⟩
  · obtain ⟨i, hread⟩ := assembleOperands_of_admits hadmits
    exact ⟨i, assemble_eq_instr_iff.mpr ⟨rfl, hread⟩⟩
  · refine assemble_eq_badOperands (Option.eq_none_iff_forall_ne_some.mpr fun i hread => hnot ?_)
    exact (admits_and_wellFormed_of_assembleOperands hread).1

/-! ## Instructions the assembler writes -/

/-- The assembler writes 0 in every reserved bit. -/
theorem wellFormed_of_assemble {l : AsmLine} {i : Instr} (h : assemble l = .instr i) : i.wellFormed = true :=
  (admits_and_wellFormed_of_assembleOperands (assemble_eq_instr_iff.mp h).2).2

/-! A number token of a field's own value is read as that value. -/

@[simp] theorem inField_val {n : Nat} (x : Fin n) : inField n x.val = some x := dif_pos x.isLt
@[simp] theorem asGpr_num (r : GprNum) : (AsmOperand.num r.val).asGpr = some r := inField_val r
@[simp] theorem asCrField_num (k : CrFieldNum) : (AsmOperand.num k.val).asCrField = some k := inField_val k
@[simp] theorem asCrBit_num (j : CrBitNum) : (AsmOperand.num j.val).asCrBit = some j := inField_val j
@[simp] theorem asM_num (m : Bool) : (AsmOperand.num m.toNat).asM = some m := by cases m <;> rfl
@[simp] theorem asNibble_num (v : Nibble) : (AsmOperand.num v.toNat).asNibble = some v := by
  rw [AsmOperand.asNibble, ← BitVec.val_toFin, inField_val, Option.map_some, BitVec.ofFin_toFin]

/-- The line of an instruction, each operand a number and the reserved bits left out. -/
def lineOf : Instr → AsmLine
  | .crrweird rt bfa m fmsk fmap =>
    ⟨false, .insn .crrweird, [.num rt.val, .num bfa.val, .num m.toNat, .num fmsk.toNat, .num fmap.toNat]⟩
  | .crrweirdRc rt bfa m fmsk fmap =>
    ⟨false, .insn .crrweirdRc, [.num rt.val, .num bfa.val, .num m.toNat, .num fmsk.toNat, .num fmap.toNat]⟩
  | .mfcrrweird rt bfa fmsk fmap _ =>
    ⟨false, .insn .mfcrrweird, [.num rt.val, .num bfa.val, .num fmsk.toNat, .num fmap.toNat]⟩
  | .mfcrrweirdRc rt bfa fmsk fmap _ =>
    ⟨false, .insn .mfcrrweirdRc, [.num rt.val, .num bfa.val, .num fmsk.toNat, .num fmap.toNat]⟩
  | .mtcrrweird bf ra m fmsk fmap =>
    ⟨false, .insn .mtcrrweird, [.num bf.val, .num ra.val, .num m.toNat, .num fmsk.toNat, .num fmap.toNat]⟩
  | .mtcrweird bf ra m fmsk fmap =>
    ⟨false, .insn .mtcrweird, [.num bf.val, .num ra.val, .num m.toNat, .num fmsk.toNat, .num fmap.toNat]⟩
  | .mcrfm bf bfa m fmsk fmap _ =>
    ⟨false, .insn .mcrfm, [.num bf.val, .num bfa.val, .num m.toNat, .num fmsk.toNat, .num fmap.toNat]⟩
  | .crweirder bt bfa m fmsk fmap =>
    ⟨false, .insn .crweirder, [.num bt.val, .num bfa.val, .num m.toNat, .num fmsk.toNat, .num fmap.toNat]⟩

/-- A well-formed instruction is what its own line assembles to. -/
theorem assemble_lineOf {i : Instr} (h : i.wellFormed = true) : assemble (lineOf i) = .instr i := by
  cases i with
  | crrweird | crrweirdRc | mtcrrweird | mtcrweird | crweirder => simp [lineOf, assemble, assembleOperands]
  | mfcrrweird _ _ _ _ rsvM | mfcrrweirdRc _ _ _ _ rsvM =>
    obtain rfl : rsvM = false := by simpa [Instr.wellFormed] using h
    simp [lineOf, assemble, assembleOperands]
  | mcrfm _ _ _ _ _ rsv =>
    obtain rfl : rsv = 0 := by simpa [Instr.wellFormed] using h
    simp [lineOf, assemble, assembleOperands]

/-- Settles O42. -/
theorem assemblerWritesExactlyTheWellFormed : Obligations.AssemblerWritesExactlyTheWellFormed := by
  intro i
  exact ⟨fun ⟨_, hline⟩ => wellFormed_of_assemble hline, fun hwf => ⟨lineOf i, assemble_lineOf hwf⟩⟩

end Sys2Proof.Machine
end

section
/-! SUPPORT and PROOF. What a step does with a word the opcode map does not recognise (R75, R150), with a set reserved
bit (R76, R77), and with the pseudo-ops (R84). -/

namespace Sys2Proof.Machine

/-! ## The step at a fetched word -/

/-- A fetched word that does not decode is an illegal instruction (R75, R150). -/
theorem step_eq_illegalInstruction {s : State} {w : InsnWord} (hfetch : s.fetchWord = some w)
    (hdecode : decodeWord s.cfg.opAssign w = none) : step s = .fault (.illegalInstruction w s.pc) := by
  simp [step, isFinal_of_inText (fetchWord_some hfetch).1, hfetch, hdecode, raiseIllegalInstruction]

/-- Settles O12: the first step of every longer run faults. -/
theorem unrecognisedWordIsIllegal : Obligations.UnrecognisedWordIsIllegal := by
  intro s w hfetch hnoRow
  have hstep := step_eq_illegalInstruction hfetch (decodeWord_eq_none hnoRow)
  exact ⟨hstep, run_of_fault hstep⟩

/-- A fetched word with a row's `match` bits is executed as that row's instruction (R73, R155). -/
theorem step_eq_exec_of_match {s : State} {w : InsnWord} {mn : Mnemonic} (hdisjoint : s.cfg.opAssign.Disjoint)
    (hfetch : s.fetchWord = some w) (hmatch : w &&& opcodeMask = s.cfg.opAssign.matchOf mn) :
    step s = exec (instrOfRow mn w) s :=
  step_eq_exec hfetch (decodeWord_of_match hdisjoint hmatch)

/-! ## Reserved bits -/

section
variable (s : State) (rt : GprNum) (bf bfa : CrFieldNum) (m : Bool) (fmsk fmap : Nibble)

theorem exec_mcrfm_reserved {rsv : BitVec 2} (h : rsv ≠ 0) :
    exec (.mcrfm bf bfa m fmsk fmap rsv) s = refuseReserved s (.mcrfm bf bfa m fmsk fmap rsv) :=
  if_pos (bne_iff_ne.mpr h)

theorem exec_mfcrrweird_reserved (h : s.cfg.mfcrrweirdIgnoresM = false) :
    exec (.mfcrrweird rt bfa fmsk fmap true) s = refuseReserved s (.mfcrrweird rt bfa fmsk fmap true) :=
  if_pos (by rw [h]; rfl)

theorem exec_mfcrrweirdRc_reserved (h : s.cfg.mfcrrweirdIgnoresM = false) :
    exec (.mfcrrweirdRc rt bfa fmsk fmap true) s = refuseReserved s (.mfcrrweirdRc rt bfa fmsk fmap true) :=
  if_pos (by rw [h]; rfl)

/-- Under the switch of R77 the two values of M have one meaning, since the test of M is false for both. -/
theorem exec_mfcrrweird_ignoresM (h : s.cfg.mfcrrweirdIgnoresM = true) :
    exec (.mfcrrweird rt bfa fmsk fmap true) s = exec (.mfcrrweird rt bfa fmsk fmap false) s :=
  if_neg (by simp [h])

theorem exec_mfcrrweirdRc_ignoresM (h : s.cfg.mfcrrweirdIgnoresM = true) :
    exec (.mfcrrweirdRc rt bfa fmsk fmap true) s = exec (.mfcrrweirdRc rt bfa fmsk fmap false) s :=
  if_neg (by simp [h])

end

/-- The word a refusal records is the one the instruction was read from (R76, R77). -/
theorem refuseReserved_instrOfRow {s : State} {w : InsnWord} {mn : Mnemonic}
    (hmatch : w &&& opcodeMask = s.cfg.opAssign.matchOf mn) :
    refuseReserved s (instrOfRow mn w) = .refused (.reservedFieldNonZero w) := by
  rw [refuseReserved, encode_instrOfRow hmatch]

/-- Settles O15: the blank cell decodes to its slice, which is not zero. -/
theorem mcrfmReservedBitsAreRefused : Obligations.McrfmReservedBitsAreRefused := by
  refine ⟨fun s w hdisjoint hfetch hmatch hslice => ?_, fun l bf bfa m fmsk fmap rsv hline => ?_⟩
  · have hrsv : fieldRsv w ≠ 0 := fun h => hslice (by rw [← fieldRsv_toNat, h]; rfl)
    calc step s = exec (instrOfRow .mcrfm w) s := step_eq_exec_of_match hdisjoint hfetch hmatch
      _ = refuseReserved s (instrOfRow .mcrfm w) := exec_mcrfm_reserved _ _ _ _ _ _ hrsv
      _ = .refused (.reservedFieldNonZero w) := refuseReserved_instrOfRow hmatch
  · simpa [Instr.wellFormed] using wellFormed_of_assemble hline

/-- With the switch off, the instruction either row reads from a word with M = 1 is refused. -/
theorem exec_instrOfRow_mfcrrweird_reserved {s : State} {w : InsnWord} (hbit : fieldM w = true)
    (hoff : s.cfg.mfcrrweirdIgnoresM = false) {mn : Mnemonic} (hrow : mn = .mfcrrweird ∨ mn = .mfcrrweirdRc) :
    exec (instrOfRow mn w) s = refuseReserved s (instrOfRow mn w) := by
  obtain rfl | rfl := hrow
  · rw [instrOfRow, hbit, exec_mfcrrweird_reserved _ _ _ _ _ hoff]
  · rw [instrOfRow, hbit, exec_mfcrrweirdRc_reserved _ _ _ _ _ hoff]

/-- Settles O16: one row or the other reads the word, with M = 1. -/
theorem mfcrrweirdMBitIsRefusedUnlessIgnored : Obligations.MfcrrweirdMBitIsRefusedUnlessIgnored := by
  refine ⟨fun s w hdisjoint hfetch hmatch hslice hoff => ?_, fun l rt bfa fmsk fmap rsvM hline => ?_,
    fun s rt bfa fmsk fmap hon => ⟨exec_mfcrrweird_ignoresM s rt bfa fmsk fmap hon,
      exec_mfcrrweirdRc_ignoresM s rt bfa fmsk fmap hon⟩⟩
  · have hbit : fieldM w = true := Bool.toNat_eq_one.mp ((fieldM_toNat w).trans hslice)
    obtain ⟨mn, hrow, hmatch⟩ : ∃ mn, (mn = .mfcrrweird ∨ mn = .mfcrrweirdRc) ∧
        w &&& opcodeMask = s.cfg.opAssign.matchOf mn :=
      hmatch.elim (fun h => ⟨_, .inl rfl, h⟩) fun h => ⟨_, .inr rfl, h⟩
    rw [step_eq_exec_of_match hdisjoint hfetch hmatch, exec_instrOfRow_mfcrrweird_reserved hbit hoff hrow,
      refuseReserved_instrOfRow hmatch]
  · obtain hline | hline := hline
    · simpa [Instr.wellFormed] using wellFormed_of_assemble hline
    · simpa [Instr.wellFormed] using wellFormed_of_assemble hline

/-! ## Pseudo-ops (R84) -/

/-- `mtcrweird` with RA = 0 matches against a source of four zeros, so it selects the positions of `fmsk` where `fmap`
is 0 (R15, R111). -/
theorem exec_mtcrweird_zero (s : State) (bf : CrFieldNum) (m : Bool) (fmsk fmap : Nibble) (bit : Nat → Bool)
    (hbit : ∀ p, p < 4 → (fmsk.getMsbD p && !fmap.getMsbD p ||
      m && s.cr.getMsbD (4 * bf.val + p) && !fmsk.getMsbD p) = bit p) :
    ∃ t, exec (.mtcrweird bf 0 m fmsk fmap) s = .next t ∧
      (∀ p, p < 4 → t.cr.getMsbD (4 * bf.val + p) = bit p) ∧
      CrKeptOutside bf s t ∧ t.gpr = s.gpr ∧ Advanced s t := by
  refine ⟨_, rfl, fun p hp => ?_, crKeptOutside_writeCrField _ _ _, rfl, (Effect.crField bf _).toAdvanced⟩
  have hzero : (lowBitFourTimes (s.ra0 0)).getMsbD p = false := by
    rw [lowBitFourTimes_getMsbD _ _ hp, ra0_getMsbD]; rfl
  rw [State.matchIntoCrField, writeCrField_getMsbD _ _ _ _ hp, mergeField_getMsbD _ _ _ _ _ hp,
    matchWord_getMsbD _ _ _ _ hp, readCrField_getMsbD _ _ _ hp, hzero, Bool.false_beq, hbit p hp]

theorem fifteen_getMsbD {p : Nat} (hp : p < 4) : (15#4).getMsbD p = true := by
  revert p; decide

/-- Settles O30: each pseudo-op is an `mtcrweird` with RA = 0. -/
theorem pseudoOpsSetTheField : Obligations.PseudoOpsSetTheField := by
  intro s bf v
  refine ⟨exec_mtcrweird_zero s bf false 0b1111 (~~~v) _ fun p hp => ?_,
    exec_mtcrweird_zero s bf true v 0b0000 _ fun p hp => ?_,
    exec_mtcrweird_zero s bf true v 0b1111 _ fun p hp => ?_⟩
  · simp [fifteen_getMsbD hp, hp]
  · cases v.getMsbD p <;> simp
  · cases v.getMsbD p <;> simp [fifteen_getMsbD hp]

end Sys2Proof.Machine
end

section
/-! SUPPORT and PROOF. The moves from a CR field to a GPR (40_cr_to_gpr.md R100 to R104): the word, the value written to
`x[RT]`, and what is left as it was, for the plain and the record forms. -/

namespace Sys2Proof.Machine

/-! ## The word -/

/-- A CW2-Form word is the sum of its cells (R62, R71). -/
theorem cw2Word_toNat (o : Cw2Opcode) (rt : GprNum) (m : Bool) (fmsk : Nibble) (bfa : CrFieldNum) (fmap : Nibble)
    (rc : Bool) : (cw2Word o rt m fmsk bfa fmap rc).toNat =
      cw2Sum o rt m.toNat fmsk.toNat bfa fmap.toNat rc.toNat := by
  rw [cw2Word_eq_cells, cells_toNat, cw2Low_toNat, BitVec.toNat_ofBool, ← Nat.add_assoc]
  rfl

section
variable (s : State) (rt : GprNum) (bfa : CrFieldNum) (m : Bool) (fmsk fmap : Nibble)

/-! ## The value written -/

/-- The register value of `crrweird[.]` is the verdict of R104 as 0 or 1 (R9, R100). -/
theorem zextBit_testCrField_toNat :
    (zextBit (s.testCrField bfa m fmsk fmap)).toNat = if Verdict s.cr bfa m fmsk fmap then 1 else 0 := by
  have htest : s.testCrField bfa m fmsk fmap = decide (Verdict s.cr bfa m fmsk fmap) := verdict_eq_decide ..
  rw [zextBit_toNat, htest, Bool.toNat, Bool.cond_decide]

/-- Bit `60 + p` of the register value of `mfcrrweird[.]` is bit `p` of the match word (R9, R12, R102). -/
theorem zextNibble_matchWord_getMsbD {p : Nat} (hp : p < 4) :
    (zextNibble (matchWord (s.readCrField bfa) fmsk fmap)).getMsbD (60 + p) =
      (fmsk.getMsbD p && (s.cr.getMsbD (4 * bfa.val + p) == fmap.getMsbD p)) := by
  rw [zextNibble_getMsbD_low _ _ hp, matchWord_getMsbD _ _ _ _ hp, readCrField_getMsbD _ _ _ hp]

/-! ## What the two forms write and keep -/

section
variable {v : Dword}

/-- A plain form writes `x[RT]` and keeps the other GPRs and the CR. -/
theorem advancePc_writeGpr_effect (hv : v.toNat < 16) :
    let t := (s.writeGpr rt v).advancePc
    t.gpr[rt] = v ∧ GprsKeptBut rt s t ∧ t.cr = s.cr ∧ Advanced s t :=
  ⟨gprSet_get_same .., gprsKeptBut_writeGpr s rt v, rfl, (Effect.gpr rt v hv).toAdvanced⟩

/-- A record form writes `x[RT]`, then CR0 from the value just written, and keeps the rest (R28). -/
theorem advancePc_recordCr0_effect (hv : v.toNat < 16) :
    let t := ((s.writeGpr rt v).recordCr0 rt).advancePc
    t.gpr[rt] = v ∧ GprsKeptBut rt s t ∧ t.readCrField 0 = analyse t.gpr[rt] s.xerSO ∧
      Cr0Recorded t.gpr[rt].toNat s t ∧ Advanced s t := by
  intro t
  have hgpr : t.gpr[rt] = v := gprSet_get_same ..
  refine ⟨hgpr, gprsKeptBut_record s rt v, crField_crFieldSet_same .., ?_, (Effect.gprRecord rt v hv).toAdvanced⟩
  rw [hgpr]
  exact cr0Recorded_record s rt v hv

end

/-! ## When `mfcrrweird[.]` goes on (R77) -/

variable {rsvM : Bool}

/-- M = 0, or the switch on, passes the test of the reserved bit. -/
theorem mfcrrweird_bit_allowed (h : rsvM = false ∨ s.cfg.mfcrrweirdIgnoresM = true) :
    ¬ (rsvM && !s.cfg.mfcrrweirdIgnoresM) = true := by
  obtain h | h := h <;> simp [h]

theorem exec_mfcrrweird_allowed (h : rsvM = false ∨ s.cfg.mfcrrweirdIgnoresM = true) :
    exec (.mfcrrweird rt bfa fmsk fmap rsvM) s =
      .next (s.writeGpr rt (zextNibble (matchWord (s.readCrField bfa) fmsk fmap))).advancePc :=
  if_neg (mfcrrweird_bit_allowed s h)

theorem exec_mfcrrweirdRc_allowed (h : rsvM = false ∨ s.cfg.mfcrrweirdIgnoresM = true) :
    exec (.mfcrrweirdRc rt bfa fmsk fmap rsvM) s =
      .next ((s.writeGpr rt (zextNibble (matchWord (s.readCrField bfa) fmsk fmap))).recordCr0 rt).advancePc :=
  if_neg (mfcrrweird_bit_allowed s h)

end

/-! ## The four instructions -/

/-- Settles O18: the plain form with the verdict as its value. -/
theorem crrweirdWritesTheVerdict : Obligations.CrrweirdWritesTheVerdict := by
  intro s rt bfa m fmsk fmap
  obtain ⟨hgpr, hframe⟩ := advancePc_writeGpr_effect s rt (zextBit_lt (s.testCrField bfa m fmsk fmap))
  refine ⟨cw2Word_toNat .., _, rfl, ?_, hframe⟩
  rw [hgpr, zextBit_testCrField_toNat]

/-- Settles O19: the record form with the verdict as its value, which the old CR gives. -/
theorem crrweirdRecordFormAlsoWritesCr0 : Obligations.CrrweirdRecordFormAlsoWritesCr0 := by
  intro s rt bfa m fmsk fmap
  obtain ⟨hgpr, hframe⟩ := advancePc_recordCr0_effect s rt (zextBit_lt (s.testCrField bfa m fmsk fmap))
  refine ⟨cw2Word_toNat .., _, rfl, ?_, hframe⟩
  rw [hgpr, zextBit_testCrField_toNat]

/-- Settles O20: refused, or the plain form with the match word as its value. -/
theorem mfcrrweirdWritesTheMatchWord : Obligations.MfcrrweirdWritesTheMatchWord := by
  intro s rt bfa fmsk fmap rsvM
  refine ⟨cw2Word_toNat .., ?_, fun hallowed => ⟨_, exec_mfcrrweird_allowed s rt bfa fmsk fmap hallowed, ?_⟩⟩
  · rintro rfl hoff
    exact exec_mfcrrweird_reserved s rt bfa fmsk fmap hoff
  · obtain ⟨hgpr, hframe⟩ :=
      advancePc_writeGpr_effect s rt (zextNibble_lt (matchWord (s.readCrField bfa) fmsk fmap))
    rw [hgpr]
    exact ⟨zextNibble_getMsbD_high _, fun p hp => zextNibble_matchWord_getMsbD s bfa fmsk fmap hp, hframe⟩

/-- Settles O21: refused, or the record form with the match word of the old CR as its value. -/
theorem mfcrrweirdRecordFormAlsoWritesCr0 : Obligations.MfcrrweirdRecordFormAlsoWritesCr0 := by
  intro s rt bfa fmsk fmap rsvM
  refine ⟨cw2Word_toNat .., ?_, fun hallowed => ⟨_, exec_mfcrrweirdRc_allowed s rt bfa fmsk fmap hallowed, ?_⟩⟩
  · rintro rfl hoff
    exact exec_mfcrrweirdRc_reserved s rt bfa fmsk fmap hoff
  · obtain ⟨hgpr, hframe⟩ :=
      advancePc_recordCr0_effect s rt (zextNibble_lt (matchWord (s.readCrField bfa) fmsk fmap))
    rw [hgpr] at hframe ⊢
    exact ⟨zextNibble_getMsbD_high _, fun p hp => zextNibble_matchWord_getMsbD s bfa fmsk fmap hp, hframe⟩

end Sys2Proof.Machine
end

section
/-! SUPPORT and PROOF. The moves from a GPR to a CR field (41_gpr_to_cr.md R110, R111): the word, the four bits written
to `CRF(BF)`, and what is left as it was. -/

namespace Sys2Proof.Machine

/-- A CW-Form word of the first or second row is the sum of its cells (R63, R64, R71). -/
theorem cwWord_toNat (o : CwOpcode) (a : Fin 32) (m : Bool) (fmsk : Nibble) (b : CrFieldNum) (fmap : Nibble) :
    (cwWord o a m fmsk b fmap).toNat = cwSum o a m.toNat fmsk.toNat b fmap.toNat := by
  rw [cwWord_eq_cells, cells_toNat, BitVec.toNat_ofBool]
  rfl

/-- The merged match word, bit by bit: a selected bit says whether `creg` agrees with `fmap`, an unselected one is the
old field's when M = 1 and 0 when M = 0 (R12, R110, R111). -/
theorem mergeField_matchWord_getMsbD (m : Bool) (creg old fmsk fmap : Nibble) {p : Nat} (hp : p < 4) :
    (mergeField m (matchWord creg fmsk fmap) old fmsk).getMsbD p =
      if fmsk.getMsbD p then creg.getMsbD p == fmap.getMsbD p else m && old.getMsbD p := by
  rw [mergeField_getMsbD _ _ _ _ _ hp, matchWord_getMsbD _ _ _ _ hp]
  cases fmsk.getMsbD p <;> simp

/-- Matching `creg` into field BF writes the four bits of the field, those of `creg` being `bit`, and keeps the other 28
CR bits and the GPRs. -/
theorem advancePc_matchIntoCrField_effect (s : State) (bf : CrFieldNum) (m : Bool) (fmsk fmap : Nibble) {creg : Nibble}
    {bit : Nat → Bool} (hbit : ∀ p, p < 4 → creg.getMsbD p = bit p) :
    let t := (s.matchIntoCrField bf creg m fmsk fmap).advancePc
    (∀ p, p < 4 → t.cr.getMsbD (4 * bf.val + p) =
      if fmsk.getMsbD p then bit p == fmap.getMsbD p else m && s.cr.getMsbD (4 * bf.val + p)) ∧
      CrKeptOutside bf s t ∧ t.gpr = s.gpr ∧ Advanced s t := by
  refine ⟨fun p hp => ?_, crKeptOutside_writeCrField s bf _, rfl, (Effect.crField bf _).toAdvanced⟩
  rw [State.matchIntoCrField, writeCrField_getMsbD _ _ _ _ hp, mergeField_matchWord_getMsbD _ _ _ _ _ hp,
    readCrField_getMsbD _ _ _ hp, hbit p hp]

/-- Settles O22: bit `p` of `creg` is bit `60 + p` of `(RA|0)`. -/
theorem mtcrrweirdMovesFourBitsToTheField : Obligations.MtcrrweirdMovesFourBitsToTheField := by
  intro s bf ra m fmsk fmap
  refine ⟨cwWord_toNat .., _, rfl, advancePc_matchIntoCrField_effect s bf m fmsk fmap fun p hp => ?_⟩
  rw [lowNibble_getMsbD _ _ hp, ra0_getMsbD]

/-- Settles O23: each bit of `creg` is bit 63 of `(RA|0)`. -/
theorem mtcrweirdMovesOneBitToTheField : Obligations.MtcrweirdMovesOneBitToTheField := by
  intro s bf ra m fmsk fmap
  refine ⟨cwWord_toNat .., _, rfl, advancePc_matchIntoCrField_effect s bf m fmsk fmap fun p hp => ?_⟩
  rw [lowBitFourTimes_getMsbD _ _ hp, ra0_getMsbD]

end Sys2Proof.Machine
end

section
/-! SUPPORT and PROOF. The moves from a CR field to the CR (42_cr_to_cr.md R120 to R122): the word, the bits written and
what is left as it was, and where the prose of `mcrfm` agrees with the rule. -/

namespace Sys2Proof.Machine

/-! ## `mcrfm` -/

/-- A CW-Form word of the third row is the sum of its cells, bits 6:10 being BF and the blank cell (R65, R71). -/
theorem cwFieldWord_toNat (o : CwOpcode) (bf : CrFieldNum) (rsv : BitVec 2) (m : Bool) (fmsk : Nibble)
    (bfa : CrFieldNum) (fmap : Nibble) : (cwFieldWord o bf rsv m fmsk bfa fmap).toNat =
      cwSum o (bf.val * 4 + rsv.toNat) m.toNat fmsk.toNat bfa fmap.toNat := by
  rw [cwFieldWord_eq_cells, cells_toNat, bfCells_toNat, BitVec.toNat_ofBool]
  rfl

/-- R120's rule for one bit: the selected source bit or the merged old bit, then `fmap`. -/
theorem mergeField_xor_getMsbD (m : Bool) (src old fmsk fmap : Nibble) {p : Nat} (hp : p < 4) :
    (mergeField m (fmsk &&& src) old fmsk ^^^ fmap).getMsbD p =
      ((if fmsk.getMsbD p then src.getMsbD p else m && old.getMsbD p) ^^ fmap.getMsbD p) := by
  rw [BitVec.getMsbD_xor, mergeField_getMsbD _ _ _ _ _ hp, BitVec.getMsbD_and]
  cases fmsk.getMsbD p <;> simp

section
variable {s t : State} {bf bfa : CrFieldNum} {m : Bool} {fmsk fmap : Nibble}

/-- Bit `p` of field BF after `mcrfm` (R120). -/
theorem exec_mcrfm_getMsbD (h : exec (.mcrfm bf bfa m fmsk fmap 0) s = .next t) {p : Nat} (hp : p < 4) :
    t.cr.getMsbD (4 * bf.val + p) =
      ((if fmsk.getMsbD p then s.cr.getMsbD (4 * bfa.val + p) else m && s.cr.getMsbD (4 * bf.val + p)) ^^
        fmap.getMsbD p) := by
  obtain rfl := Host.Outcome.next.inj h
  rw [writeCrField_getMsbD _ _ _ _ hp, mergeField_xor_getMsbD _ _ _ _ _ hp, readCrField_getMsbD _ _ _ hp,
    readCrField_getMsbD _ _ _ hp]

/-- A bit in both masks is copied inverted (R122). -/
theorem exec_mcrfm_getMsbD_of_both (h : exec (.mcrfm bf bfa m fmsk fmap 0) s = .next t) {p : Nat} (hp : p < 4)
    (hfmsk : fmsk.getMsbD p = true) (hfmap : fmap.getMsbD p = true) :
    t.cr.getMsbD (4 * bf.val + p) = !s.cr.getMsbD (4 * bfa.val + p) := by
  rw [exec_mcrfm_getMsbD h hp, if_pos hfmsk, hfmap, Bool.xor_true]

/-- A masked-out bit is the old one (M = 1) or 0 (M = 0), and then `fmap` is exclusive-ORed onto it (R122). -/
theorem exec_mcrfm_getMsbD_of_unselected (h : exec (.mcrfm bf bfa m fmsk fmap 0) s = .next t) {p : Nat} (hp : p < 4)
    (hfmsk : fmsk.getMsbD p = false) :
    t.cr.getMsbD (4 * bf.val + p) = ((if m then s.cr.getMsbD (4 * bf.val + p) else false) ^^ fmap.getMsbD p) := by
  rw [exec_mcrfm_getMsbD h hp, hfmsk, if_neg Bool.false_ne_true, Bool.if_false_right, Bool.decide_eq_true]

end

/-- Settles O24: refused, or field BF written whole. -/
theorem mcrfmMovesTheMaskedField : Obligations.McrfmMovesTheMaskedField := by
  intro s bf bfa m fmsk fmap rsv
  refine ⟨cwFieldWord_toNat .., exec_mcrfm_reserved s bf bfa m fmsk fmap, ?_⟩
  rintro rfl
  exact ⟨_, rfl, fun p hp => exec_mcrfm_getMsbD rfl hp, crKeptOutside_writeCrField s bf _, rfl,
    (Effect.crField bf _).toAdvanced⟩

/-! ## The prose of `mcrfm` (R122) -/

/-- `fmap` lies inside `fmsk` when no unselected position has its bit. -/
theorem and_not_eq_zero_iff (fmsk fmap : Nibble) :
    fmap &&& ~~~fmsk = 0 ↔ ∀ p, p < 4 → fmsk.getMsbD p = false → fmap.getMsbD p = false := by
  have hbit : ∀ p, p < 4 → (fmap &&& ~~~fmsk).getMsbD p = (fmap.getMsbD p && !fmsk.getMsbD p) := fun p hp => by
    simp [hp]
  constructor
  · intro hzero p hp hfmsk
    simpa [hzero, hfmsk] using (hbit p hp).symm
  · intro hinside
    refine BitVec.eq_of_getMsbD_eq fun p hp => ?_
    rw [hbit p hp]
    cases hfmsk : fmsk.getMsbD p with
    | false => simp [hinside p hp hfmsk]
    | true => simp

theorem xor_eq_left_iff : ∀ a b : Bool, (a ^^ b) = a ↔ b = false := by decide

/-- Settles O31: `fmap` moves a masked-out bit off its prose value in every state, the one after reset included,
exactly when its own bit is 1. -/
theorem mcrfmProseHoldsExactlyInsideTheMask : Obligations.McrfmProseHoldsExactlyInsideTheMask := by
  intro bf bfa m fmsk fmap
  refine ⟨fun s => ⟨_, rfl, fun p hp => ⟨exec_mcrfm_getMsbD_of_both rfl hp, fun hfmsk hfmap => ?_⟩⟩, ?_⟩
  · rw [exec_mcrfm_getMsbD_of_unselected rfl hp hfmsk, hfmap, Bool.xor_true]
    cases m <;> rfl
  · rw [and_not_eq_zero_iff]
    constructor
    · intro hprose p hp hfmsk
      have hbit := hprose State.reset _ rfl p hp hfmsk
      rw [exec_mcrfm_getMsbD_of_unselected rfl hp hfmsk] at hbit
      exact (xor_eq_left_iff _ _).mp hbit
    · intro hinside s t h p hp hfmsk
      rw [exec_mcrfm_getMsbD_of_unselected h hp hfmsk, hinside p hp hfmsk, Bool.xor_false]

/-! ## `crweirder` -/

/-- The test of a field is the verdict of R104. -/
theorem testCrField_eq_decide (s : State) (bfa : CrFieldNum) (m : Bool) (fmsk fmap : Nibble) :
    s.testCrField bfa m fmsk fmap = decide (Verdict s.cr bfa m fmsk fmap) :=
  verdict_eq_decide ..

/-- Settles O25: the verdict is on the CR before the write of bit BT. -/
theorem crweirderWritesOneCrBit : Obligations.CrweirderWritesOneCrBit := by
  intro s bt bfa m fmsk fmap
  refine ⟨cwWord_toNat .., _, rfl, ?_, fun q hq hne => ?_, rfl, (Effect.crBit bt _).toAdvanced⟩
  · rw [advancePc_cr, writeCrBit_cr, crBitSet_getMsbD _ _ _ _ bt.isLt, if_pos rfl, testCrField_eq_decide]
  · rw [advancePc_cr, writeCrBit_cr, crBitSet_getMsbD _ _ _ _ hq, if_neg hne]

end Sys2Proof.Machine
end

section
/-! SUPPORT and PROOF. The transcribed SVP64 forms (43_svp64_vectorised.md R131, R134 to R140): when a form is refused,
the writes it performs when it is not, and the value each write carries. -/

namespace Sys2Proof.Machine

/-! ## When the two GPR loops are refused (U1 to U3, C7, log entry 12) -/

/-- What the two GPR loops refuse: unsettled predication, and then a destination override where RT is a vector and more
elements than a scalar RT has room for. -/
def svRefuses (inp : SvInputs) (limit : Nat) : Bool :=
  !svSettled inp (svElements inp) || if inp.rtIsvec then destOverride inp else svOverflows inp limit

section
variable {inp : SvInputs}

theorem svRefuses_vector (hvec : inp.rtIsvec = true) (limit : Nat) :
    svRefuses inp limit = true ↔ ¬ SvSettled inp inp.vl ∨ inp.rtElwidth ≠ 0 := by
  rw [svRefuses, if_pos hvec, Bool.or_eq_true, destOverride_iff, svElements_vector hvec, Bool.not_eq_true',
    ← Bool.not_eq_true, svSettled_range]

theorem svRefuses_scalar (hscalar : inp.rtIsvec = false) {limit : Nat} (hlimit : 1 ≤ limit) :
    let count := if inp.mapreduce then inp.vl else min 1 inp.vl
    svRefuses inp limit = true ↔ ¬ SvSettled inp count ∨ limit < count := by
  rw [svRefuses, hscalar, if_neg Bool.false_ne_true, Bool.or_eq_true, svOverflows_iff hlimit,
    svElements_scalar hscalar, Bool.not_eq_true', ← Bool.not_eq_true, svSettled_range]

end

/-- The tests both loops make before they write are one test. -/
theorem svGuards_eq (inp : SvInputs) (limit : Nat) (vectorWrites scalarWrites : List IregWrite) :
    (if !svSettled inp (svElements inp) then (.error .svp64NotModelled : Except Refusal (List IregWrite))
      else if inp.rtIsvec then if destOverride inp then .error .svp64NotModelled else .ok vectorWrites
      else if svOverflows inp limit then .error .svp64NotModelled else .ok scalarWrites) =
    if svRefuses inp limit then .error .svp64NotModelled
      else .ok (if inp.rtIsvec then vectorWrites else scalarWrites) := by
  unfold svRefuses
  cases svSettled inp (svElements inp) with
  | false => rfl
  | true =>
    cases inp.rtIsvec with
    | true => cases destOverride inp <;> rfl
    | false => cases svOverflows inp limit <;> rfl

/-! ## The value of an element -/

section
variable (inp : SvInputs) (bb : Nat) (m : Bool) (fmsk fmap : Nibble) (crOf : Nat → Nibble)

/-- What element `i` of `sv.crrweird` writes (R131, R134). -/
def svVerdictValue (i : Nat) : Nat :=
  svResult inp i 0 (verdict m (matchWord (svSource inp crOf bb i) fmsk fmap) fmsk).toNat

/-- What element `i` of `sv.mfcrrweird` writes (R131, R138). -/
def svMatchValue (i : Nat) : Nat := svResult inp i 0 (matchWord (svSource inp crOf bb i) fmsk fmap).toNat

variable {inp bb fmsk fmap crOf} {i : Nat} {n : Nibble}

theorem svVerdictValue_writes (h : SvMatch inp crOf bb i fmsk fmap n) :
    SvWrites inp i 0 (if (if m then n ≠ 0 else n = fmsk) then 1 else 0)
      (svVerdictValue inp bb m fmsk fmap crOf i) := by
  rw [svVerdictValue, svMatch_unique h, verdict_toNat]
  exact svResult_writes ..

theorem svMatchValue_writes (h : SvMatch inp crOf bb i fmsk fmap n) :
    SvWrites inp i 0 n.toNat (svMatchValue inp bb fmsk fmap crOf i) := by
  rw [svMatchValue, svMatch_unique h]
  exact svResult_writes ..

end

/-! ## What the two GPR loops answer -/

section
variable {inp : SvInputs} (rt bb : Nat) (m : Bool) (fmsk fmap : Nibble) (crOf : Nat → Nibble)

theorem svCrrweird_refused (h : svRefuses inp 64 = true) :
    svCrrweird inp rt bb m fmsk fmap crOf = .error .svp64NotModelled :=
  (svGuards_eq inp 64 _ _).trans (if_pos h)

theorem svMfcrrweird_refused (h : svRefuses inp 16 = true) :
    svMfcrrweird inp rt bb fmsk fmap crOf = .error .svp64NotModelled :=
  (svGuards_eq inp 16 _ _).trans (if_pos h)

section
variable (hvec : inp.rtIsvec = true)
include hvec

/-- Two writes an element: the zeroing of the bits above the packed ones, then the verdict (R136). -/
theorem svCrrweird_vector (h : ¬ svRefuses inp 64 = true) :
    let k := packCount inp.bbElwidth
    svCrrweird inp rt bb m fmsk fmap crOf = .ok ((List.range inp.vl).flatMap fun i =>
      [⟨rt + i / k, 0, 63 - k, 0⟩,
        ⟨rt + i / k, 63 - i % k, 63 - i % k, svVerdictValue inp bb m fmsk fmap crOf i⟩]) := by
  rw [← svElements_vector hvec]
  refine (svGuards_eq inp 64 _ _).trans ?_
  rw [if_neg h, if_pos hvec]
  rfl

theorem svMfcrrweird_vector (h : ¬ svRefuses inp 16 = true) :
    let k := nibblesPerRegister inp
    svMfcrrweird inp rt bb fmsk fmap crOf = .ok ((List.range inp.vl).map fun i =>
      ⟨rt + i / k, 60 - i % k * 4, 63 - i % k * 4, svMatchValue inp bb fmsk fmap crOf i⟩) := by
  rw [← svElements_vector hvec]
  refine (svGuards_eq inp 16 _ _).trans ?_
  rw [if_neg h, if_pos hvec]
  rfl

end

section
variable (hscalar : inp.rtIsvec = false)
include hscalar

theorem svCrrweird_scalar (h : ¬ svRefuses inp 64 = true) :
    svCrrweird inp rt bb m fmsk fmap crOf =
      .ok ((List.range (if inp.mapreduce then inp.vl else min 1 inp.vl)).map fun i =>
        ⟨rt, 63 - i, 63 - i, svVerdictValue inp bb m fmsk fmap crOf i⟩) := by
  rw [← svElements_scalar hscalar]
  refine (svGuards_eq inp 64 _ _).trans ?_
  rw [if_neg h, if_neg (ne_true_of_eq_false hscalar)]
  rfl

theorem svMfcrrweird_scalar (h : ¬ svRefuses inp 16 = true) :
    svMfcrrweird inp rt bb fmsk fmap crOf =
      .ok ((List.range (if inp.mapreduce then inp.vl else min 1 inp.vl)).map fun i =>
        ⟨rt, 60 - i * 4, 63 - i * 4, svMatchValue inp bb fmsk fmap crOf i⟩) := by
  rw [← svElements_scalar hscalar]
  refine (svGuards_eq inp 16 _ _).trans ?_
  rw [if_neg h, if_neg (ne_true_of_eq_false hscalar)]
  rfl

end

end

/-! ## The GPR loops -/

/-- Settles O43: at most 64 settled elements are one write each. -/
theorem svCrrweirdScalarWritesOneBitPerElement : Obligations.SvCrrweirdScalarWritesOneBitPerElement := by
  intro inp rt bb m fmsk fmap crOf hscalar count
  have hrefuses := svRefuses_scalar hscalar (limit := 64) (by decide)
  refine ⟨fun h => svCrrweird_refused rt bb m fmsk fmap crOf (hrefuses.mpr h), fun hsettled hroom =>
    ⟨_, svCrrweird_scalar rt bb m fmsk fmap crOf hscalar fun h => ?_, by simp [count], fun i hi => ?_⟩⟩
  · exact (hrefuses.mp h).elim (· hsettled) (Nat.not_lt.mpr hroom)
  · rw [List.getElem_map, List.getElem_range]
    exact ⟨rfl, rfl, rfl, fun n hn => svVerdictValue_writes m hn⟩

/-- Settles O46: writes `2i` and `2i + 1` are those of element `i`. -/
theorem svCrrweirdVectorPacksVerdicts : Obligations.SvCrrweirdVectorPacksVerdicts := by
  intro inp rt bb m fmsk fmap crOf hvec
  have hrefuses := svRefuses_vector hvec 64
  refine ⟨fun h => svCrrweird_refused rt bb m fmsk fmap crOf (hrefuses.mpr h), fun hsettled hwidth =>
    ⟨_, svCrrweird_vector rt bb m fmsk fmap crOf hvec fun h => ?_, by simp [Nat.mul_comm], fun i hi => ?_⟩⟩
  · exact (hrefuses.mp h).elim (· hsettled) (· hwidth)
  · rw [packCount_eq]
    exact ⟨(getElem?_pairs ..).1.trans (if_pos hi), _, (getElem?_pairs ..).2.trans (if_pos hi),
      fun n hn => svVerdictValue_writes m hn⟩

/-- Settles O44: at the default width the limits of the loop are its packing count. -/
theorem svMfcrrweirdPacksNibbles : Obligations.SvMfcrrweirdPacksNibbles := by
  intro inp rt bb fmsk fmap crOf hvec
  have hrefuses := svRefuses_vector hvec 16
  refine ⟨fun h => svMfcrrweird_refused rt bb fmsk fmap crOf (hrefuses.mpr h), fun hsettled hwidth =>
    ⟨_, svMfcrrweird_vector rt bb fmsk fmap crOf hvec fun h => ?_, by simp, fun i hi => ?_⟩⟩
  · exact (hrefuses.mp h).elim (· hsettled) (· hwidth)
  · rw [List.getElem_map, List.getElem_range, nibblesPerRegister_default hwidth, Nat.mul_comm]
    exact ⟨rfl, rfl, rfl, fun n hn => svMatchValue_writes hn⟩

/-- Settles O47: at most 16 settled elements are one write each. -/
theorem svMfcrrweirdScalarWritesOneNibblePerElement : Obligations.SvMfcrrweirdScalarWritesOneNibblePerElement := by
  intro inp rt bb fmsk fmap crOf hscalar count
  have hrefuses := svRefuses_scalar hscalar (limit := 16) (by decide)
  refine ⟨fun h => svMfcrrweird_refused rt bb fmsk fmap crOf (hrefuses.mpr h), fun hsettled hroom =>
    ⟨_, svMfcrrweird_scalar rt bb fmsk fmap crOf hscalar fun h => ?_, by simp [count], fun i hi => ?_⟩⟩
  · exact (hrefuses.mp h).elim (· hsettled) (Nat.not_lt.mpr hroom)
  · rw [List.getElem_map, List.getElem_range, Nat.mul_comm]
    exact ⟨rfl, rfl, rfl, fun n hn => svMatchValue_writes hn⟩

/-! ## `sv.mtcrweird` (R140) -/

/-- A source of four zeros matches where `fmap` is 0 (R12, R111). -/
theorem matchWord_zero (fmsk fmap : Nibble) : matchWord (lowBitFourTimes 0) fmsk fmap = fmsk &&& ~~~fmap := by
  have hzero : lowBitFourTimes 0 = 0#4 := rfl
  rw [matchWord, hzero, BitVec.xor_zero, BitVec.and_comm]

/-- The merge as one formula for both values of M. -/
theorem mergeField_eq_or (m : Bool) (result old fmsk : Nibble) :
    mergeField m result old fmsk = result ||| if m then old &&& ~~~fmsk else 0 := by
  cases m with
  | false => exact BitVec.or_zero.symm
  | true => rfl

section
variable {inp : SvInputs} (bf : Nat) {ra : GprNum} (m : Bool) (fmsk fmap : Nibble) (crOf : Nat → Nibble)

theorem svMtcrweird_refused (h : ra ≠ 0 ∨ ¬ SvSettled inp inp.vl) :
    svMtcrweird inp bf ra m fmsk fmap crOf = .error .svp64NotModelled := by
  refine if_pos ?_
  rwa [Bool.or_eq_true, bne_iff_ne, Bool.not_eq_true', ← Bool.not_eq_true, svSettled_range]

theorem svMtcrweird_settled (hra : ra = 0) (hsettled : SvSettled inp inp.vl) :
    svMtcrweird inp bf ra m fmsk fmap crOf = .ok ((List.range inp.vl).map fun i => ⟨bf + i,
      svResult inp i 0 (mergeField m (matchWord (lowBitFourTimes 0) fmsk fmap) (crOf (bf + i)) fmsk)⟩) := by
  refine if_neg ?_
  rw [Bool.or_eq_true, bne_iff_ne, Bool.not_eq_true', ← Bool.not_eq_true, svSettled_range]
  exact fun h => h.elim (· hra) (· hsettled)

end

/-- Settles O48: the scalar rule on a zero source, for every settled element. -/
theorem svMtcrweirdCopiesThePredicate : Obligations.SvMtcrweirdCopiesThePredicate := by
  intro inp bf ra m fmsk fmap crOf
  refine ⟨svMtcrweird_refused bf m fmsk fmap crOf, fun hra hsettled =>
    ⟨_, svMtcrweird_settled bf m fmsk fmap crOf hra hsettled, by simp, fun i hi => ?_⟩⟩
  rw [List.getElem_map, List.getElem_range, matchWord_zero, mergeField_eq_or]
  exact ⟨rfl, svResult_writes ..⟩

end Sys2Proof.Machine
end

section
/-! SUPPORT and PROOF. The ways a step stops: the two faults and the two refusals (R42, R75 to R77, R150 to R152, R155),
and where a launched program stops. -/

namespace Sys2Proof.Machine

/-! ## What a step answers -/

/-- Where no word can be fetched and the run is not over, the step is a `FetchFault` (R42, R151). -/
theorem step_eq_fetchFault {s : State} (hfinal : s.isFinal = false) (hfetch : s.fetchWord = none) :
    step s = .fault (.fetchFault s.pc) := by
  simp [step, hfinal, hfetch, raiseFetchFault]

/-- Every step is the end of the run, one of the two faults, or the execution of a decoded instruction (R155). -/
theorem step_cases (s : State) :
    (s.isFinal = true ∧ step s = .refused .endOfRun) ∨
    (s.isFinal = false ∧ s.fetchWord = none ∧ step s = .fault (.fetchFault s.pc)) ∨
    (∃ w, s.fetchWord = some w ∧ decodeWord s.cfg.opAssign w = none ∧
      step s = .fault (.illegalInstruction w s.pc)) ∨
    ∃ w i, s.fetchWord = some w ∧ decodeWord s.cfg.opAssign w = some i ∧ step s = exec i s := by
  cases hfetch : s.fetchWord with
  | none =>
    cases hfinal : s.isFinal with
    | true => exact .inl ⟨rfl, step_eq_endOfRun_iff.mpr hfinal⟩
    | false => exact .inr (.inl ⟨rfl, rfl, step_eq_fetchFault hfinal hfetch⟩)
  | some w =>
    cases hdecode : decodeWord s.cfg.opAssign w with
    | none => exact .inr (.inr (.inl ⟨w, rfl, hdecode, step_eq_illegalInstruction hfetch hdecode⟩))
    | some i => exact .inr (.inr (.inr ⟨w, i, rfl, hdecode, step_eq_exec hfetch hdecode⟩))

/-- Settles O11. -/
theorem stepRunsTheDecodedInstruction : Obligations.StepRunsTheDecodedInstruction := fun _ _ _ => step_eq_exec

/-- Settles O17: an execution never faults, and a refused one records the word its instruction encodes to, which is
the word fetched. -/
theorem stepStopsOnlyAsListed : Obligations.StepStopsOnlyAsListed := by
  intro s
  obtain ⟨hfinal, hstep⟩ | ⟨-, hfetch, hstep⟩ | ⟨w, hfetch, hdecode, hstep⟩ | ⟨w, i, hfetch, hdecode, hstep⟩ :=
    step_cases s
  all_goals rw [hstep]
  · exact ⟨nofun, fun r h => .inl ⟨(Host.Outcome.refused.inj h).symm, hfinal⟩⟩
  · exact ⟨fun f h => .inl ⟨(Host.Outcome.fault.inj h).symm, hfetch⟩, nofun⟩
  · exact ⟨fun f h => .inr ⟨w, hfetch, (Host.Outcome.fault.inj h).symm, hdecode⟩, nofun⟩
  · refine ⟨fun f h => absurd h (exec_ne_fault i s f), fun r h => .inr ⟨w, i, hfetch, hdecode, ?_⟩⟩
    obtain ⟨hillFormed, hr⟩ := exec_refused h
    rw [encodeInvertsDecode _ _ _ hdecode] at hr
    exact ⟨hillFormed, hr⟩

/-! ## The fetch fault (R151) -/

theorem step_eq_fetchFault_iff {s : State} {a : Dword} :
    step s = .fault (.fetchFault a) ↔ a = s.pc ∧ s.isFinal = false ∧ s.fetchWord = none := by
  constructor
  · intro h
    obtain ⟨-, hstep⟩ | ⟨hfinal, hfetch, hstep⟩ | ⟨w, -, -, hstep⟩ | ⟨w, i, -, -, hstep⟩ := step_cases s
    all_goals rw [hstep] at h
    · cases h
    · cases h; exact ⟨rfl, hfinal, hfetch⟩
    · cases h
    · exact absurd h (exec_ne_fault i s _)
  · rintro ⟨rfl, hfinal, hfetch⟩
    exact step_eq_fetchFault hfinal hfetch

/-- At an aligned pc in an aligned text all four bytes of the word lie in the text, so where they are mapped the fetch
returns a word. -/
theorem exists_fetchWord_of_mapped {s : State} (haligned : s.AlignedPc) (hbase : s.programBase.toNat % 4 = 0)
    (hmapped : ∀ b, s.programBase.toNat ≤ b → b < s.programBase.toNat + 4 * s.programLength →
      (Memory.read s.mem b).isSome = true) (hin : s.inText = true) : ∃ w, s.fetchWord = some w := by
  obtain ⟨hlow, hhigh⟩ := inText_iff.mp hin
  have hpc : s.pc.toNat % 4 = 0 := haligned
  have hbyte : ∀ k < 4, ∃ b, Memory.read s.mem (s.pc.toNat + k) = some b := fun k hk =>
    Option.isSome_iff_exists.mp (hmapped _ (by omega) (by omega))
  obtain ⟨b0, h0⟩ := hbyte 0 (by decide)
  obtain ⟨b1, h1⟩ := hbyte 1 (by decide)
  obtain ⟨b2, h2⟩ := hbyte 2 (by decide)
  obtain ⟨b3, h3⟩ := hbyte 3 (by decide)
  exact ⟨_, fetchWord_of_read hin haligned h0 h1 h2 h3⟩

/-- Settles O45: inside the text the fetch would have returned a word, and at the end address the run is over. -/
theorem fetchFaultInAMappedTextShowsAPcOutside : Obligations.FetchFaultInAMappedTextShowsAPcOutside := by
  intro s a haligned hbase hmapped hstep
  obtain ⟨ha, hfinal, hfetch⟩ := step_eq_fetchFault_iff.mp hstep
  have houtside : ¬ s.inText = true := fun hin => by
    obtain ⟨w, hw⟩ := exists_fetchWord_of_mapped haligned hbase hmapped hin
    rw [hw] at hfetch; cases hfetch
  rw [inText_iff] at houtside
  rw [← Bool.not_eq_true, isFinal_iff] at hfinal
  exact ⟨ha, by omega, by omega⟩

/-- In a state of a run no word is missing: the pc is at a mapped word of the text or at its end. -/
theorem State.Inv.step_ne_fetchFault {s : State} (h : s.Inv) (a : Dword) : step s ≠ .fault (.fetchFault a) := by
  intro hstep
  obtain ⟨-, houtside, hnotEnd⟩ :=
    fetchFaultInAMappedTextShowsAPcOutside s a h.alignedPc h.alignedBase h.textMapped hstep
  obtain hin | hfinal := h.pcInRun
  · have := inText_iff.mp hin
    omega
  · exact hnotEnd (isFinal_iff.mp hfinal).2

/-- Every state that a run reaches from one that meets the invariant meets it. -/
theorem State.Inv.of_run {n : Nat} {s t : State} (h : s.Inv) (hrun : core.run n s = .next t) : t.Inv := by
  induction n generalizing s with
  | zero => rwa [← run_zero_next hrun]
  | succ n ih =>
    obtain ⟨u, hstep, htail⟩ := run_succ_next hrun
    exact ih (stepKeepsTheInvariant s u h hstep) htail

/-- Settles O13: outside the text no word is fetched, and a launched run keeps the invariant, which rules the fault
out. -/
theorem fetchFaultOutsideTheTextNeverInALaunchedRun : Obligations.FetchFaultOutsideTheTextNeverInALaunchedRun := by
  refine ⟨fun s houtside hnotEnd => ?_, fun cfg base words gpr cr so n t haligned hfits hrun => ?_⟩
  · have hfinal : s.isFinal = false := by
      rw [← Bool.not_eq_true, isFinal_iff]
      exact fun h => hnotEnd h.2
    have hfetch : s.fetchWord = none := Option.eq_none_iff_forall_ne_some.mpr fun w hw => by
      have := inText_iff.mp (fetchWord_some hw).1
      omega
    exact step_eq_fetchFault hfinal hfetch
  · exact ((launch_inv cfg base words gpr cr so haligned hfits).of_run hrun).step_ne_fetchFault

/-! ## The first illegal word of a launched program (R150, R156) -/

/-- A run that goes on for `k` steps is continued by the run from the state they reach. -/
theorem run_add_of_next {k : Nat} {s t : State} (h : core.run k s = .next t) (n : Nat) :
    core.run (k + n) s = core.run n t := by
  induction k generalizing s with
  | zero => rw [run_zero_next h, Nat.zero_add]
  | succ k ih =>
    obtain ⟨u, hstep, htail⟩ := run_succ_next h
    rw [Nat.succ_add, run_of_next hstep, ih htail]

/-- Settles O40: the run goes on through the `n` runnable words, and the step at word `n` faults. -/
theorem launchedProgramStopsAtTheFirstIllegalWord : Obligations.LaunchedProgramStopsAtTheFirstIllegalWord := by
  intro cfg base words gpr cr so n hn haligned hfits hrunnable hnoRow
  have hstart := launch_atWord cfg base words gpr cr so haligned hfits
  obtain ⟨t, hrun, hat, hcfg⟩ := hstart.run_of_runnable n (by omega) fun j hj _ => hrunnable j (by omega)
  rw [Nat.zero_add] at hat
  have hpc : t.pc = base + BitVec.ofNat 64 (4 * n) := (runIsStraightLineAndKeepsTheText n _ t hrun).1
  have hstep : step t = .fault (.illegalInstruction words[n] t.pc) :=
    step_eq_illegalInstruction (hat.fetchWord hn) (decodeWord_eq_none (by rw [hcfg]; exact hnoRow))
  obtain ⟨m, hm⟩ : ∃ m, words.length = n + (m + 1) := ⟨words.length - n - 1, by omega⟩
  rw [hm, run_add_of_next hrun, run_of_fault hstep, hpc]

end Sys2Proof.Machine
end

section
/-! PROOF. The premises of a launch and the recipe for a known value (70_reset_and_hazards.md R170 to R172): an admitted
launch meets the premises and the invariant, and two instructions put a known value into a CR field and a GPR. -/

namespace Sys2Proof.Machine

/-! ## Known values (R172) -/

/-- With both masks full, the match word is the field itself (R12, R102). -/
theorem matchWord_fifteen_fifteen (creg : Nibble) : matchWord creg 0b1111 0b1111 = creg :=
  BitVec.eq_of_getMsbD_eq fun p hp => by simp [matchWord_getMsbD _ _ _ _ hp, fifteen_getMsbD hp]

/-- After `mtcri BF,v` the field BF is `v`, whatever it was (R84). -/
theorem exec_mtcri_readCrField (s : State) (bf : CrFieldNum) (v : Nibble) :
    ∃ t, exec (mtcri bf v) s = .next t ∧ t.readCrField bf = v := by
  obtain ⟨⟨t, hexec, hfield, _⟩, _⟩ := pseudoOpsSetTheField s bf v
  refine ⟨t, hexec, BitVec.eq_of_getMsbD_eq fun p hp => ?_⟩
  rw [readCrField_getMsbD _ _ _ hp, hfield p hp]

/-- Settles O34: `mtcri` makes the field `v`, and a full match word of the field is the field. -/
theorem knownValueFromAnyContents : Obligations.KnownValueFromAnyContents := by
  intro s bf rt v
  obtain ⟨t, hmtcri, hfield⟩ := exec_mtcri_readCrField s bf v
  refine ⟨t, _, hmtcri, exec_mfcrrweird_allowed t rt bf 0b1111 0b1111 (.inl rfl), ?_⟩
  rw [(advancePc_writeGpr_effect t rt (zextNibble_lt _)).1, hfield, matchWord_fifteen_fifteen, zextNibble_toNat]

/-! ## The launch premises (R170, R171) -/

/-- Settles O36: a launch takes its parameters and contents as given, and an admitted one meets the invariant. -/
theorem launchMeetsThePremises : Obligations.LaunchMeetsThePremises := by
  intro cfg base words gpr cr so hdisjoint haligned hfits s
  have hinv : s.Inv := launch_inv cfg base words gpr cr so haligned hfits
  exact ⟨hinv.alignedPc, hinv.textFits, rfl, hdisjoint, hinv, rfl, rfl, rfl⟩

end Sys2Proof.Machine
end
